-- ==== Sys2Proof/Word.lean ====
section
/-! DEFINITION. The two word types of the RLE codec core (spec/00_scope.md section 4, spec/10_state.md R12): a byte, and
the 32-bit word of the packed colour token, the colour accumulator and the host's registers. -/

namespace Sys2Proof

/-- A byte, value 0 to 255 (spec/00_scope.md section 4). Bit 0 is the least significant bit. -/
abbrev Byte := BitVec 8

/-- A 32-bit word: the packed colour token (R80), `dec.acc` (R23), the value of a host register access (R28). -/
abbrev Word := BitVec 32

end Sys2Proof
end

