-- ==== Sys2Proof/Config.lean ====
section
/-! DEFINITION. The parameters of the hardware (spec/00_scope.md R5 to R8; spec/92_eei_decisions.md D3, D5, D6), the
constants of the opcode vocabulary (R6), and the free value of a byte nothing has written (spec/20_memory.md R47). State
carries a `Config` that no step changes (log 1), so a statement about every state is a statement about every
configuration; `State.reset` has `Config.hw`, the hardware's own values. -/

namespace Sys2Proof

/-- The control and status registers the host sees, by name (spec/10_state.md R28). -/
inductive HostReg
  | encCtrlStart | encStatus | encErr | encErrPos | encSrcLen | encOutLen | encX | encY | encPos
  | decCtrlStart | decStatus | decErr | decErrPos | decInLen | decP | decX | decY | decPhase
  deriving DecidableEq, Repr

/-- What one instance of the block fixes (R5, R8, R28, R40). -/
structure Config where
  /-- The raster's width `W` (R5). -/
  w : Nat
  /-- The raster's height `H` (R5). -/
  h : Nat
  /-- `STREAM_CAP`, the size of a stream memory (R8, D5: OPEN). -/
  streamCap : Nat
  /-- Whether ENC's STRM and DEC's STRM are one physical memory (R40: left to the platform; log 3). -/
  sharedStrm : Bool
  /-- `REG_MAP`, the bus address of each register name (R28, D6: OPEN, no default; log 4). An address may be listed
  more than once (log 23). -/
  regMap : List (Nat × HostReg)
  deriving DecidableEq, Repr

namespace Config

/-- `NSAMP = W·H`, the number of samples of the raster (R5). -/
def nsamp (c : Config) : Nat := c.w * c.h

/-- `OUT_MAX`, the longest stream ENC can produce: every run of length 1 (R7). -/
def outMax (c : Config) : Nat := 1 + c.h * (c.w * 9 + 4)

/-- The hardware's values: `W = H = 200` (R5), `STREAM_CAP` at its default 2^19 (R8, log 2); two stream memories
(log 3) and an empty register map (log 4) are the model's choice. -/
def hw : Config := { w := 200, h := 200, streamCap := 524288, sharedStrm := false, regMap := [] }

end Config

/-- The FREE VALUE a byte of memory that nothing has written reads as (R47, U5: any value; log 7): of memory `m` (0 for
SRC, 1 for ENC's STRM, 2 for DEC's STRM, 3 for GRID), in its `n`-th unspecified contents, at index `a`. It has no body,
so nothing can be proved of its value. -/
opaque Config.freeByte (m n a : Nat) : Byte

/-! The named constants of the vocabulary (R6). -/

namespace Vocab

abbrev toolNone : Byte := 0x80
abbrev toolLine : Byte := 0x81
abbrev colourEnd : Byte := 0x83
abbrev targetXReset : Byte := 0x84
abbrev advanceYPaint : Byte := 0x40
abbrev advanceYSkip : Byte := 0x41
/-- A packed-colour data byte is `DATA_BASE | g` (R6, R64). -/
abbrev dataBase : Byte := 0xC0
/-- The alpha byte of the packed colour token and the literal sixth byte of a colour sequence (R6). -/
abbrev alpha : Byte := 0xFF
/-- The largest run-length chunk (R6). -/
abbrev chunkMax : Nat := 31

end Vocab

end Sys2Proof
end

