-- ==== Sys2Proof/Syntax.lean ====
section
/-! DEFINITION. The opcodes of the sketch stream, one constructor for each row of spec/opcode_table.json
(spec/30_encoding.md R60 to R66), and the lines of the spec's textual syntax with its pseudo-instructions (R74, R75). -/

namespace Sys2Proof

/-- One opcode. `RUN` and `DATA` carry the field of their format (R61). A reserved row has no operand field (R144), so
it carries the byte itself; the two reserved rows of one value carry nothing. -/
inductive Instr
  /-- 0x00 to 0x1F, `RUN n` (R65, R143). -/
  | run (n : BitVec 5)
  /-- 0x40 (R140). -/
  | advanceYPaint
  /-- 0x41 (R141). -/
  | advanceYSkip
  /-- 0x80 (R136). -/
  | toolNone
  /-- 0x81 (R137). -/
  | toolLine
  /-- 0x83 (R138). -/
  | colourEnd
  /-- 0x84 (R139). -/
  | targetXReset
  /-- 0xC0 to 0xFF, `DATA g` (R64, R142). -/
  | data (g : BitVec 6)
  /-- Reserved, 0x20 to 0x3F (R66, R144; so the rows below). -/
  | reserved20 (b : Byte)
  /-- Reserved, 0x42 and 0x43. -/
  | reserved42 (b : Byte)
  /-- Reserved, 0x44 to 0x47. -/
  | reserved44 (b : Byte)
  /-- Reserved, 0x48 to 0x4F. -/
  | reserved48 (b : Byte)
  /-- Reserved, 0x50 to 0x5F. -/
  | reserved50 (b : Byte)
  /-- Reserved, 0x60 to 0x7F. -/
  | reserved60 (b : Byte)
  /-- Reserved, 0x82. -/
  | reserved82
  /-- Reserved, 0x85. -/
  | reserved85
  /-- Reserved, 0x86 and 0x87. -/
  | reserved86 (b : Byte)
  /-- Reserved, 0x88 to 0x8F. -/
  | reserved88 (b : Byte)
  /-- Reserved, 0x90 to 0x9F. -/
  | reserved90 (b : Byte)
  /-- Reserved, 0xA0 to 0xBF. -/
  | reservedA0 (b : Byte)
  deriving DecidableEq, Repr

/-- The class of a byte (R72). -/
inductive ByteClass
  | run | advPaint | advSkip | toolNone | toolLine | colourEnd | targetXReset | data | reserved
  deriving DecidableEq, Repr

/-- One line of the textual syntax: an opcode by its name, a raw byte, or a pseudo-instruction (R74, R75). -/
inductive AsmLine
  /-- An opcode written by its mnemonic. -/
  | opcode (i : Instr)
  /-- `BYTE v`. -/
  | byte (v : Byte)
  /-- `COLOUR s`. -/
  | colour (s : Byte)
  /-- `RUNLEN L`. -/
  | runLen (l : Nat)
  /-- `WRAP`. -/
  | wrap
  /-- `PAINT s, L`. -/
  | paint (s : Byte) (l : Nat)
  /-- `ROW s`. -/
  | row (s : Byte)
  deriving DecidableEq, Repr

/-- One run of a row of a sketch: its sample and its length (spec/42_encoder.md R112, `run`). -/
structure Run where
  sample : Byte
  len : Nat
  deriving DecidableEq, Repr

/-- The implied tool of a stream position (00_scope.md glossary; R29, R113): a notion, no register holds it. -/
inductive Tool
  | none | line
  deriving DecidableEq, Repr

end Sys2Proof
end

