-- ==== Sys2Proof/WellFormed.lean ====
section
/-! DEFINITION. The checks on syntax and configuration: a reserved opcode carries a byte of its row (spec/30_encoding.md
R62, R66); a configuration keeps the bounds of spec/00_scope.md R5 and spec/92_eei_decisions.md D3 and D5; the rows of a
sketch are those of the grammar of spec/42_encoder.md R112. -/

namespace Sys2Proof

/-- `b` lies in the range of byte values `lo` to `hi`. -/
def inRange (lo hi b : Byte) : Bool := decide (lo.toNat ≤ b.toNat ∧ b.toNat ≤ hi.toNat)

/-- Each reserved opcode carries a byte of the range its table row gives it (R62, R66). `RUN` and `DATA` carry fields of
the width of their format (R61), which admits every value. -/
def Instr.wf : Instr → Bool
  | .run _ => true
  | .advanceYPaint => true
  | .advanceYSkip => true
  | .toolNone => true
  | .toolLine => true
  | .colourEnd => true
  | .targetXReset => true
  | .data _ => true
  | .reserved20 b => inRange 0x20 0x3F b
  | .reserved42 b => inRange 0x42 0x43 b
  | .reserved44 b => inRange 0x44 0x47 b
  | .reserved48 b => inRange 0x48 0x4F b
  | .reserved50 b => inRange 0x50 0x5F b
  | .reserved60 b => inRange 0x60 0x7F b
  | .reserved82 => true
  | .reserved85 => true
  | .reserved86 b => inRange 0x86 0x87 b
  | .reserved88 b => inRange 0x88 0x8F b
  | .reserved90 b => inRange 0x90 0x9F b
  | .reservedA0 b => inRange 0xA0 0xBF b

/-- The bounds a configuration keeps: `1 ≤ W, H ≤ 255` (R5, D3) and `OUT_MAX ≤ STREAM_CAP < 2^32` (R8, D5). -/
abbrev Config.wf (c : Config) : Prop :=
  1 ≤ c.w ∧ c.w ≤ 255 ∧ 1 ≤ c.h ∧ c.h ≤ 255 ∧ c.outMax ≤ c.streamCap ∧ c.streamCap < 2 ^ 32

/-- No two neighbouring runs carry the same sample (R112: "two adjacent runs of one row carry different samples"). -/
def adjacentDiffer : List Run → Bool
  | [] => true
  | [_] => true
  | a :: b :: rest => decide (a.sample ≠ b.sample) && adjacentDiffer (b :: rest)

/-- One row of the grammar of R112: runs of length 1 or more whose lengths sum to `W`, neighbours differing. -/
def rowWf (c : Config) (row : List Run) : Bool :=
  row.all (fun r => decide (1 ≤ r.len)) && decide ((row.map Run.len).sum = c.w) && adjacentDiffer row

/-- The rows of a well-formed stream: `H` of them, each well formed (R112). -/
def rowsWf (c : Config) (rows : List (List Run)) : Bool :=
  decide (rows.length = c.h) && rows.all (rowWf c)

end Sys2Proof
end

