-- ==== Sys2Proof/Decode.lean ====
section
/-! DEFINITION. From bytes to opcodes and back (spec/30_encoding.md R60 to R66, R72; spec/opcode_table.json). Decoding a
byte is total: every one of the 256 values is an opcode (R62). Decoding a list of bytes rejects, by name, only the empty
list. -/

namespace Sys2Proof

/-- One row of spec/opcode_table.json: a byte is of the row when `byte & mask = pattern`. -/
structure OpRow where
  mnemonic : String
  pattern : Byte
  mask : Byte
  deriving DecidableEq, Repr

/-- A byte is of this row. -/
def OpRow.covers (r : OpRow) (b : Byte) : Bool := b &&& r.mask == r.pattern

/-- The table, in its own order (R62; spec/opcode_table.json). -/
def opcodeTable : List OpRow :=
  [⟨"RUN", 0x00, 0xE0⟩,
   ⟨"ADVANCE_Y_PAINT", 0x40, 0xFF⟩,
   ⟨"ADVANCE_Y_SKIP", 0x41, 0xFF⟩,
   ⟨"TOOL_NONE", 0x80, 0xFF⟩,
   ⟨"TOOL_LINE", 0x81, 0xFF⟩,
   ⟨"COLOUR_END", 0x83, 0xFF⟩,
   ⟨"TARGET_X_RESET", 0x84, 0xFF⟩,
   ⟨"DATA", 0xC0, 0xC0⟩,
   ⟨"RESERVED", 0x20, 0xE0⟩,
   ⟨"RESERVED", 0x42, 0xFE⟩] ++
  [⟨"RESERVED", 0x44, 0xFC⟩,
   ⟨"RESERVED", 0x48, 0xF8⟩,
   ⟨"RESERVED", 0x50, 0xF0⟩,
   ⟨"RESERVED", 0x60, 0xE0⟩,
   ⟨"RESERVED", 0x82, 0xFF⟩,
   ⟨"RESERVED", 0x85, 0xFF⟩,
   ⟨"RESERVED", 0x86, 0xFE⟩,
   ⟨"RESERVED", 0x88, 0xF8⟩,
   ⟨"RESERVED", 0x90, 0xF0⟩,
   ⟨"RESERVED", 0xA0, 0xE0⟩]

/-- The opcode a byte is, row by row of the table (R62); the fields are those of R61. The last arm is the row
0xA0 to 0xBF, the only values left. -/
def decodeByte (b : Byte) : Instr :=
  if b &&& 0xE0 = 0x00 then .run (b.extractLsb' 0 5)
  else if b = 0x40 then .advanceYPaint
  else if b = 0x41 then .advanceYSkip
  else if b = 0x80 then .toolNone
  else if b = 0x81 then .toolLine
  else if b = 0x83 then .colourEnd
  else if b = 0x84 then .targetXReset
  else if b &&& 0xC0 = 0xC0 then .data (b.extractLsb' 0 6)
  else if b &&& 0xE0 = 0x20 then .reserved20 b
  else if b &&& 0xFE = 0x42 then .reserved42 b
  else if b &&& 0xFC = 0x44 then .reserved44 b
  else if b &&& 0xF8 = 0x48 then .reserved48 b
  else if b &&& 0xF0 = 0x50 then .reserved50 b
  else if b &&& 0xE0 = 0x60 then .reserved60 b
  else if b = 0x82 then .reserved82
  else if b = 0x85 then .reserved85
  else if b &&& 0xFE = 0x86 then .reserved86 b
  else if b &&& 0xF8 = 0x88 then .reserved88 b
  else if b &&& 0xF0 = 0x90 then .reserved90 b
  else .reservedA0 b

/-- Why a list of bytes holds no opcode at its head. -/
inductive DecodeReject
  /-- The list is empty: an opcode is exactly one byte (R60). -/
  | endOfBytes
  deriving DecidableEq, Repr

/-- The first opcode of a list of bytes, and the bytes after it: every opcode is exactly one byte (R60). -/
def decode : List Byte → Except DecodeReject (Instr × List Byte)
  | [] => .error .endOfBytes
  | b :: rest => .ok (decodeByte b, rest)

/-- The byte of an opcode, from the formats C, N and D (R61) and the values of R62; a reserved opcode is its byte. -/
def encode : Instr → Byte
  | .run n => 0#3 ++ n
  | .advanceYPaint => Vocab.advanceYPaint
  | .advanceYSkip => Vocab.advanceYSkip
  | .toolNone => Vocab.toolNone
  | .toolLine => Vocab.toolLine
  | .colourEnd => Vocab.colourEnd
  | .targetXReset => Vocab.targetXReset
  | .data g => 3#2 ++ g
  | .reserved20 b => b
  | .reserved42 b => b
  | .reserved44 b => b
  | .reserved48 b => b
  | .reserved50 b => b
  | .reserved60 b => b
  | .reserved82 => 0x82
  | .reserved85 => 0x85
  | .reserved86 b => b
  | .reserved88 b => b
  | .reserved90 b => b
  | .reservedA0 b => b

/-- The bytes of a list of opcodes, in stream order (R44 (b), R60). -/
def encodeAll (is : List Instr) : List Byte := is.map encode

/-- The class of a byte as R72 gives it, by ranges of its value. -/
def classOf (b : Byte) : ByteClass :=
  if b.toNat ≤ 0x1F then .run
  else if b = 0x40 then .advPaint
  else if b = 0x41 then .advSkip
  else if b = 0x80 then .toolNone
  else if b = 0x81 then .toolLine
  else if b = 0x83 then .colourEnd
  else if b = 0x84 then .targetXReset
  else if 0xC0 ≤ b.toNat then .data
  else .reserved

/-- The class of an opcode. -/
def Instr.byteClass : Instr → ByteClass
  | .run _ => .run
  | .advanceYPaint => .advPaint
  | .advanceYSkip => .advSkip
  | .toolNone => .toolNone
  | .toolLine => .toolLine
  | .colourEnd => .colourEnd
  | .targetXReset => .targetXReset
  | .data _ => .data
  | .reserved20 _ => .reserved
  | .reserved42 _ => .reserved
  | .reserved44 _ => .reserved
  | .reserved48 _ => .reserved
  | .reserved50 _ => .reserved
  | .reserved60 _ => .reserved
  | .reserved82 => .reserved
  | .reserved85 => .reserved
  | .reserved86 _ => .reserved
  | .reserved88 _ => .reserved
  | .reserved90 _ => .reserved
  | .reservedA0 _ => .reserved

/-- The row of the table an opcode is of, by its place in `opcodeTable`. -/
def Instr.rowIndex : Instr → Nat
  | .run _ => 0
  | .advanceYPaint => 1
  | .advanceYSkip => 2
  | .toolNone => 3
  | .toolLine => 4
  | .colourEnd => 5
  | .targetXReset => 6
  | .data _ => 7
  | .reserved20 _ => 8
  | .reserved42 _ => 9
  | .reserved44 _ => 10
  | .reserved48 _ => 11
  | .reserved50 _ => 12
  | .reserved60 _ => 13
  | .reserved82 => 14
  | .reserved85 => 15
  | .reserved86 _ => 16
  | .reserved88 _ => 17
  | .reserved90 _ => 18
  | .reservedA0 _ => 19

/-- The bytes of an instruction given as one number, bit 0 the least significant bit of the first byte. The table gives
every opcode 8 bits (R60); at least one byte is laid out. -/
def layBytes (nbits w : Nat) : List Byte :=
  (List.range (max 1 ((nbits + 7) / 8))).map (fun k => BitVec.ofNat 8 (w >>> (8 * k)))

/-- The opcode the decoder reads from an instruction whose bits are `w`. -/
def decodeTableWord (nbits w : Nat) : Option Instr :=
  match decode (layBytes nbits w) with
  | .ok (i, _) => some i
  | .error _ => none

end Sys2Proof
end

