-- ==== Sys2Proof/Machine/State.lean ====
section
/-! DEFINITION. The state of the block, as plain data: the registers of ENC and DEC (spec/10_state.md R10 to R33), the
memories (spec/20_memory.md R40 to R47), the configuration no step changes (log 1), and the model's own record of the
unspecified contents (log 7), of the turns to come (log 5) and of the host's last read (log 11). -/

namespace Sys2Proof.Machine

/-- A unit's status (R27). -/
inductive Status
  | idle | busy | done | fault
  deriving DecidableEq, Repr

/-- The position of DEC's control flow (R22; log 12). -/
inductive Phase
  | idle | scan | cSkip | cSeed | cAcc | runLen
  deriving DecidableEq, Repr

/-- The codes a unit's `err` register can hold (spec/60_exceptions.md R171); codes 6 and 7 are never written
(log 12). -/
inductive ErrCode
  | none
  | malformedColourSequence
  | malformedRunSequence
  | outOfBoundsWrite
  /-- Reserved for the host's driver; no rule writes it (R177). -/
  | unsupportedExtension
  | dimensionMismatch
  deriving DecidableEq, Repr

/-- The registers both units have a copy of: status, error code, error position (R11, R19). -/
structure UnitCtl where
  status : Status
  err : ErrCode
  errPos : Nat
  deriving DecidableEq, Repr

/-- ENC's registers (R11). Positions and cursors are natural numbers (D4; log 10). -/
structure Enc extends UnitCtl where
  srcLen : Nat
  pos : Nat
  x : Nat
  y : Nat
  outLen : Nat
  deriving DecidableEq, Repr

/-- DEC's registers (R19). Positions and cursors are natural numbers (D4; log 10); `runlen` is one by R25. -/
structure Dec extends UnitCtl where
  inLen : Nat
  p : Nat
  phase : Phase
  x : Nat
  y : Nat
  acc : Word
  colour : Byte
  runlen : Nat
  deriving DecidableEq, Repr

/-- The memory spaces (R40); ENC's STRM and DEC's STRM are named apart, and are one memory where the platform has it so
(`Config.sharedStrm`, log 3). -/
inductive Space
  | src | encStrm | decStrm | grid
  deriving DecidableEq, Repr

/-- What has been written of one space: the bytes whose value the rules fix, by index, indices rising. A byte that is not
listed reads as a free value (R47; log 7). -/
abbrev Memory := List Host.Cell

/-- The number of the unspecified contents each memory has: it tells apart the values that a byte nothing has written
may have before and after the contents of a memory become unspecified anew (R47, R200; log 7). -/
structure Contents where
  src : Nat
  encStrm : Nat
  decStrm : Nat
  grid : Nat
  deriving DecidableEq, Repr

/-- Every memory has its first unspecified contents. -/
def Contents.first : Contents := { src := 0, encStrm := 0, decStrm := 0, grid := 0 }

/-- Every memory gets new unspecified contents (R200). -/
def Contents.renew (k : Contents) : Contents :=
  { src := k.src + 1, encStrm := k.encStrm + 1, decStrm := k.decStrm + 1, grid := k.grid + 1 }

/-- ENC's STRM gets new unspecified contents: those at and above `enc.out_len` of a new encode (R47; log 8). -/
def Contents.renewEncStrm (k : Contents) : Contents := { k with encStrm := k.encStrm + 1 }

/-- What the host can do to the block (R28, R40, R200). -/
inductive HostCmd
  /-- Write a register by its name. -/
  | writeReg (r : HostReg) (v : Word)
  /-- Read a register by its name. -/
  | readReg (r : HostReg)
  /-- Write the register that REG_MAP has at a bus address (D6). -/
  | busWrite (a : Nat) (v : Word)
  /-- Read the register that REG_MAP has at a bus address (D6). -/
  | busRead (a : Nat)
  /-- Write one byte of a memory. -/
  | writeMem (sp : Space) (a : Nat) (b : Byte)
  /-- Read one byte of a memory. -/
  | readMem (sp : Space) (a : Nat)
  /-- Hardware reset (R200). -/
  | reset
  deriving DecidableEq, Repr

/-- Whose turn a step is (R9, R186; log 5). -/
inductive Turn
  | enc
  | dec
  | host (c : HostCmd)
  deriving DecidableEq, Repr

/-- The whole machine. -/
structure State where
  /-- `W`, `H`, `STREAM_CAP`, `REG_MAP`, one STRM or two: configuration, changed by no step (R32; log 1). -/
  cfg : Config
  enc : Enc
  dec : Dec
  /-- SRC, the samples ENC reads (R41). -/
  src : Memory
  /-- ENC's STRM (R42). -/
  encStrm : Memory
  /-- DEC's STRM where the platform keeps a memory of its own for it (R40, R42); not used where they are one. -/
  decStrm : Memory
  /-- GRID, the samples DEC paints (R43). -/
  grid : Memory
  /-- The MODEL's own field: which free values the bytes nothing has written read as (log 7). -/
  contents : Contents
  /-- The MODEL's own field: the turns to come, oldest first (log 5). -/
  turns : List Turn
  /-- The MODEL's own field: the value the host's last read was answered with (log 11). -/
  hostData : Word
  deriving DecidableEq, Repr

/-- Why the model stops where the spec gives no next state. The spec's own faults (R170 to R180) are not here: they are
next states with `status = FAULT`. -/
inductive Fault
  /-- An index outside its space is accessed. Raised by host memory accesses, by a fetch or lookahead at or above
  STREAM_CAP, by ENC past SRC or STRM; for the units unreachable from reset under a well-formed configuration (R56).
  Safe. -/
  | noSuchAddress (sp : Space) (a : Nat)
  /-- An opcode is executed while DEC is not BUSY or its phase is IDLE, where the spec has no enabled step (R131).
  Raised by every opcode's meaning; `step` never gets there from a state that meets the invariant
  (log 17). Safe. -/
  | noEnabledStep
  deriving DecidableEq, Repr

/-- Accesses and instructions the model gives no move. -/
inductive Refusal
  /-- An opcode without a meaning yet. Raised by a rejected arm of `exec` only; there is none. Safe. -/
  | notModelled (mnemonic : String)
  /-- The host accesses a memory that a BUSY unit owns, or starts a unit on it (R55, R210, R212). Raised by the host's
  turns. Safe: the model has no move where a platform does something the spec gives no meaning. -/
  | ownedMemory (sp : Space)
  /-- The host reads a register, other than `status`, of a BUSY unit (R28, R210, D22). Raised by the host's reads.
  Safe. -/
  | busyUnitRegister (r : HostReg)
  /-- The host writes a register that is read-only (R28; log 15). Raised by the host's writes. Safe. -/
  | readOnlyRegister (r : HostReg)
  /-- REG_MAP has no register at this bus address (D6; log 4). Raised by the host's bus accesses. Safe. -/
  | unmappedBusAddress (a : Nat)
  deriving DecidableEq, Repr

/-- A unit's status, error code and error position at reset (R33). -/
def UnitCtl.reset : UnitCtl := { status := .idle, err := .none, errPos := 0 }

/-- ENC at reset (R33). -/
def Enc.reset : Enc := { toUnitCtl := UnitCtl.reset, srcLen := 0, pos := 0, x := 0, y := 0, outLen := 0 }

/-- DEC at reset (R33). -/
def Dec.reset : Dec :=
  { toUnitCtl := UnitCtl.reset, inLen := 0, p := 0, phase := .idle, x := 0, y := 0, acc := 0, colour := 0, runlen := 0 }

/-- The machine right after reset (R33, R200): every register at R33's value, no byte of any memory written (R47), the
configuration at the hardware's values, and no turn pending. -/
def State.reset : State :=
  { cfg := Config.hw, enc := Enc.reset, dec := Dec.reset, src := [], encStrm := [], decStrm := [], grid := [],
    contents := Contents.first, turns := [], hostData := 0 }

end Sys2Proof.Machine
end

