-- ==== Sys2Proof/Machine/Ops.lean ====
section
/-! DEFINITION. The shared operations over memory and registers: one byte read, one byte written, a row of equal bytes, a
list of bytes (spec/20_memory.md R40 to R47, R56); and raising a fault, once for both units (spec/60_exceptions.md R174),
with what ends one (R180). -/

namespace Sys2Proof.Machine

/-- What a step of this machine answers. -/
abbrev Out := Host.Outcome State Fault Refusal

/-! ### Memory -/

/-- The byte written at index `a`, if there is one (R47). -/
def Memory.read : Memory → Nat → Option Byte
  | [], _ => none
  | (k, v) :: m, a => if k = a then some v else Memory.read m a

/-- Store byte `b` at index `a`, keeping the indices rising (R46: every access moves exactly 8 bits). -/
def Memory.write : Memory → Nat → Byte → Memory
  | [], a, b => [(a, b)]
  | (k, v) :: m, a, b =>
    if a < k then (a, b) :: (k, v) :: m
    else if k = a then (a, b) :: m
    else (k, v) :: Memory.write m a b

/-- The canonical form: indices strictly rising. An unlisted byte has no fixed value, so no entry can equal it. -/
def Memory.wf : Memory → Bool
  | [] => true
  | [_] => true
  | (a, _) :: (b, v) :: m => decide (a < b) && Memory.wf ((b, v) :: m)

/-- Every listed index is below `n`. -/
def Memory.within (n : Nat) (m : Memory) : Bool := m.all (fun c => decide (c.1 < n))

/-- `n` equal bytes stored from index `a` up, in increasing order (R147). -/
def Memory.writeRun (m : Memory) (a : Nat) : Nat → Byte → Memory
  | 0, _ => m
  | n + 1, b => Memory.writeRun (m.write a b) (a + 1) n b

/-- The bytes `bs` stored from index `a` up, in order: the memory side of `Emit` (00_scope.md section 4). -/
def Memory.writeList (m : Memory) (a : Nat) : List Byte → Memory
  | [] => m
  | b :: bs => Memory.writeList (m.write a b) (a + 1) bs

/-- A memory whose indices `a` to `a + n - 1` hold `b`, and nothing else is written. -/
def Memory.filled (b : Byte) (a : Nat) : Nat → Memory
  | 0 => []
  | n + 1 => (a, b) :: Memory.filled b (a + 1) n

/-- The number of bytes of a space (R41, R42, R43). -/
def Space.size (c : Config) : Space → Nat
  | .src => c.nsamp
  | .encStrm => c.streamCap
  | .decStrm => c.streamCap
  | .grid => c.nsamp

/-- The contents of a space. DEC's STRM is ENC's where the platform has one memory for both (R40; log 3). -/
def State.memOf (s : State) : Space → Memory
  | .src => s.src
  | .encStrm => s.encStrm
  | .decStrm => if s.cfg.sharedStrm then s.encStrm else s.decStrm
  | .grid => s.grid

/-- Replace the contents of a space. -/
def State.setMem (s : State) (sp : Space) (m : Memory) : State :=
  match sp with
  | .src => { s with src := m }
  | .encStrm => { s with encStrm := m }
  | .decStrm => if s.cfg.sharedStrm then { s with encStrm := m } else { s with decStrm := m }
  | .grid => { s with grid := m }

/-- What a byte that nothing has written reads as: a free value, one and the same until the contents of its memory become
unspecified anew (R47, U5; log 7). DEC's STRM is ENC's where the platform has one memory for both. -/
def State.unwritten (s : State) (sp : Space) (a : Nat) : Byte :=
  match sp with
  | .src => Config.freeByte 0 s.contents.src a
  | .encStrm => Config.freeByte 1 s.contents.encStrm a
  | .decStrm =>
    if s.cfg.sharedStrm then Config.freeByte 1 s.contents.encStrm a else Config.freeByte 2 s.contents.decStrm a
  | .grid => Config.freeByte 3 s.contents.grid a

/-- The byte at index `a` of a space: the one written there, or a free value (R46, R47). -/
def State.byteAt (s : State) (sp : Space) (a : Nat) : Byte := ((s.memOf sp).read a).getD (s.unwritten sp a)

/-- `MemRead(sp, a, 1)` (00_scope.md section 4): the byte, or the model's fault where the index does not exist
(log 20). -/
def State.load (s : State) (sp : Space) (a : Nat) : Except Fault Byte :=
  if a < sp.size s.cfg then .ok (s.byteAt sp a) else .error (.noSuchAddress sp a)

/-- `MemWrite(sp, a, 1, b)` (00_scope.md section 4). -/
def State.store (s : State) (sp : Space) (a : Nat) (b : Byte) : Except Fault State :=
  if a < sp.size s.cfg then .ok (s.setMem sp ((s.memOf sp).write a b))
  else .error (.noSuchAddress sp a)

/-! ### Raising a fault, and what ends one -/

/-- `raise F(info)` on a unit's registers (R174): status FAULT, the fault's code, `info mod 2^32`. -/
def UnitCtl.raise (_ : UnitCtl) (f : ErrCode) (info : Nat) : UnitCtl :=
  { status := .fault, err := f, errPos := info % 2 ^ 32 }

/-- What a START does to `err` and `err_pos` (R101, R130): there is no return from a fault, and only a new START of the
unit or a hardware reset leaves FAULT (R180). -/
def UnitCtl.clear (u : UnitCtl) : UnitCtl := { u with err := .none, errPos := 0 }

/-- `raise` in a step of ENC (R174): every other register and every memory stays. -/
def Enc.raise (e : Enc) (f : ErrCode) (info : Nat) : Enc := { e with toUnitCtl := e.toUnitCtl.raise f info }

/-- `raise` in a step of DEC (R174): `dec.p` and `dec.phase` stay at the faulting position and phase. -/
def Dec.raise (d : Dec) (f : ErrCode) (info : Nat) : Dec := { d with toUnitCtl := d.toUnitCtl.raise f info }

/-- `raise` in a step of ENC, as an outcome: a next state. -/
def raiseEnc (f : ErrCode) (info : Nat) (s : State) : Out := .next { s with enc := s.enc.raise f info }

/-- `raise` in a step of DEC, as an outcome: a next state. -/
def raiseDec (f : ErrCode) (info : Nat) (s : State) : Out := .next { s with dec := s.dec.raise f info }

/-- A step that changes DEC's registers and nothing else. -/
def onDec (f : Dec → Dec) (s : State) : Out := .next { s with dec := f s.dec }

end Sys2Proof.Machine
end

