-- ==== Sys2Proof/Machine/Flags.lean ====
section
/-! DEFINITION. The numbers the host reads for status, fault codes and phases (spec/10_state.md R11, R19, R22, R27;
spec/60_exceptions.md R171), and the changes of status that are no fault. The status registers are the only flags of the
hardware; there are no condition codes (R27). -/

namespace Sys2Proof.Machine

/-- IDLE 0, BUSY 1, DONE 2, FAULT 3 (R27). -/
def Status.code : Status → BitVec 2
  | .idle => 0
  | .busy => 1
  | .done => 2
  | .fault => 3

/-- The fault codes (R171). -/
def ErrCode.code : ErrCode → BitVec 3
  | .none => 0
  | .malformedColourSequence => 1
  | .malformedRunSequence => 2
  | .outOfBoundsWrite => 3
  | .unsupportedExtension => 4
  | .dimensionMismatch => 5

/-- IDLE 0, SCAN 1, C_SKIP 2, C_SEED 3, C_ACC 4, RUNLEN 5 (R19, R22). -/
def Phase.code : Phase → BitVec 3
  | .idle => 0
  | .scan => 1
  | .cSkip => 2
  | .cSeed => 3
  | .cAcc => 4
  | .runLen => 5

/-- `status <- BUSY`: a pass begins (R101, R130). -/
def UnitCtl.begin (u : UnitCtl) : UnitCtl := { u with status := .busy }

/-- `status <- DONE`: a pass ends without a fault (R109, R149). -/
def UnitCtl.finish (u : UnitCtl) : UnitCtl := { u with status := .done }

/-- ENC is BUSY. -/
def State.encBusy (s : State) : Bool := decide (s.enc.status = .busy)

/-- DEC is BUSY. -/
def State.decBusy (s : State) : Bool := decide (s.dec.status = .busy)

end Sys2Proof.Machine
end

