-- ==== Sys2Proof/Machine/Operands.lean ====
section
/-! DEFINITION. Every operand form of the stream (spec/30_encoding.md R64, R65, R71): the packed colour token and its
groups (spec/41_colour_pack_unpack.md R80, R81), the packer (R82), what the unpacker takes from a byte and from the
accumulator (R87 to R89), and the run-length chunker (spec/42_encoder.md R105). -/

namespace Sys2Proof.Machine

/-! ### The packer -/

/-- The packed colour token `W32 = (s << 24) | (s << 16) | (s << 8) | 0xFF` (R80). -/
def token (s : Byte) : Word :=
  (s.zeroExtend 32 <<< 24) ||| (s.zeroExtend 32 <<< 16) ||| (s.zeroExtend 32 <<< 8) ||| Vocab.alpha.zeroExtend 32

/-- A 6-bit group of the token, `(W32 >> k) & 0x3F` (R81). -/
def tokenGroup (w : Word) (k : Nat) : Byte := ((w >>> k) &&& 0x3F).setWidth 8

/-- A packed-colour data byte, `0xC0 | g` (R64). -/
def dataByte (g : Byte) : Byte := Vocab.dataBase ||| g

/-- `pack(s)`, the colour sequence of a sample: five computed data bytes, the literal 0xFF, COLOUR_END (R67, R82). -/
def pack (s : Byte) : List Byte :=
  [dataByte (tokenGroup (token s) 30), dataByte (tokenGroup (token s) 24), dataByte (tokenGroup (token s) 18),
   dataByte (tokenGroup (token s) 12), dataByte (tokenGroup (token s) 6), Vocab.alpha, Vocab.colourEnd]

/-! ### The unpacker -/

/-- The seed a byte gives, `zext_32(b & 0x03)` (R87). -/
def seedOf (b : Byte) : Word := (b &&& 0x03).zeroExtend 32

/-- The 6-bit group of any byte, `b & 0x3F` (R64, R88). -/
def groupOf (b : Byte) : Word := (b &&& 0x3F).zeroExtend 32

/-- `((acc << 6) | (b & 0x3F)) mod 2^32` (R88). -/
def accumulate (acc : Word) (b : Byte) : Word := (acc <<< 6) ||| groupOf b

/-- The sample of the accumulated value, `acc[15:8]` (R89). -/
def sampleOf (acc : Word) : Byte := acc.extractLsb' 8 8

/-! ### Run lengths -/

/-- The number of chunks of a run length (R105). -/
def nchunks (l : Nat) : Nat := l / Vocab.chunkMax + (if l % Vocab.chunkMax = 0 then 0 else 1)

/-- `chunks(L)`: as many bytes 0x1F as 31 goes into `L`, then the remainder if it is not zero (R105). -/
def chunks (l : Nat) : List Byte :=
  List.replicate (l / Vocab.chunkMax) 0x1F ++
    (if l % Vocab.chunkMax = 0 then [] else [BitVec.ofNat 8 (l % Vocab.chunkMax)])

/-- The value a run-length chunk adds (R65): unsigned, not scaled. -/
def chunkValue (n : BitVec 5) : Nat := n.toNat

/-- The wrap sequence (R69). -/
def wrapSeq : List Byte := [Vocab.toolNone, Vocab.targetXReset, Vocab.advanceYSkip, Vocab.toolLine]

/-- One painted run as ENC emits it: colour, run length, ADVANCE_Y_PAINT (R75, `PAINT s, L`; R104 to R107). -/
def paintSeq (s : Byte) (l : Nat) : List Byte := pack s ++ chunks l ++ [Vocab.advanceYPaint]

end Sys2Proof.Machine
end

