-- ==== Sys2Proof/Machine/Decoder.lean ====
section
/-! DEFINITION. The decoder unit DEC without its opcodes: START_DEC, the fetch of a byte, the end of the stream, and what
a byte can do in each phase (spec/43_decoder.md R130 to R135, R145 to R149; spec/41_colour_pack_unpack.md R85 to R91).
The opcodes' meanings put these together. -/

namespace Sys2Proof.Machine

/-! ### Start, fetch, end of the stream -/

/-- START_DEC on DEC's registers (R130). -/
def Dec.start (d : Dec) : Dec :=
  { d with toUnitCtl := d.toUnitCtl.clear.begin, p := 0, x := 0, y := 0, acc := 0, colour := 0, runlen := 0,
           phase := .scan }

/-- START_DEC (R130): ignored while DEC is BUSY (R204); otherwise the registers are set and every cell of GRID is
written with 0. Where the platform has one STRM, a START while ENC owns it is refused (R212; log 19). -/
def startDec (s : State) : Out :=
  if s.decBusy then .next s
  else if s.cfg.sharedStrm && s.encBusy then .refused (.ownedMemory .decStrm)
  else .next { s with dec := s.dec.start, grid := Memory.filled 0 0 s.cfg.nsamp }

/-- The byte at the scan position, `STRM[dec.p]` (R131). -/
def fetchByte (s : State) : Except Fault Byte := s.load .decStrm s.dec.p

/-- The end of the stream, by phase (R132, R86, R90, R145, R149). -/
def endOfStream (s : State) : Out :=
  match s.dec.phase with
  | .idle => .fault .noEnabledStep
  | .scan => onDec (fun d => { d with toUnitCtl := d.toUnitCtl.finish }) s
  | .cSkip => raiseDec .malformedColourSequence s.dec.p s
  | .cSeed => raiseDec .malformedColourSequence s.dec.p s
  | .cAcc => raiseDec .malformedColourSequence s.dec.p s
  | .runLen => raiseDec .malformedRunSequence s.dec.p s

/-! ### What a byte can do -/

/-- Pass over a byte: `dec.p <- dec.p + 1`, nothing else (R134). -/
def Dec.passOver (d : Dec) : Dec := { d with p := d.p + 1 }

/-- A paint trigger: the colour unpack begins at the next byte (R134). -/
def Dec.trigger (d : Dec) : Dec := { d with p := d.p + 1, phase := .cSkip }

/-- C_SKIP: the byte is skipped, whatever it is (R86). -/
def Dec.skip (d : Dec) : Dec := { d with p := d.p + 1, phase := .cSeed }

/-- C_SEED: the byte's low two bits start the accumulator (R87). -/
def Dec.seed (d : Dec) (b : Byte) : Dec := { d with acc := seedOf b, p := d.p + 1, phase := .cAcc }

/-- C_ACC, a byte other than COLOUR_END: its low six bits are appended (R88). -/
def Dec.accumulate (d : Dec) (b : Byte) : Dec := { d with acc := Machine.accumulate d.acc b, p := d.p + 1 }

/-- C_ACC, COLOUR_END: the sample is taken and the run-length read begins (R89). -/
def Dec.endColour (d : Dec) : Dec :=
  { d with colour := sampleOf d.acc, runlen := 0, p := d.p + 1, phase := .runLen }

/-- RUNLEN, a run-length byte: its value is added (R145). -/
def Dec.addRun (d : Dec) (n : Nat) : Dec := { d with runlen := d.runlen + n, p := d.p + 1 }

/-- The bounds check before a paint fails (R146). -/
def Dec.outOfBounds (c : Config) (d : Dec) : Bool :=
  decide (1 ≤ d.runlen ∧ (c.w < d.x + d.runlen ∨ c.h ≤ d.y))

/-- The cursor after a paint (R147). -/
def Dec.moveCursor (c : Config) (d : Dec) : Dec :=
  if d.x + d.runlen = c.w then { d with x := 0, y := d.y + 1 } else { d with x := d.x + d.runlen }

/-- The index in GRID of the cell at the cursor, `y·W + x` (R43): where a paint begins. -/
def Dec.cursorIndex (c : Config) (d : Dec) : Nat := d.y * c.w + d.x

/-- RUNLEN, a terminator: bounds check, paint, cursor update, back to SCAN with `dec.p` unchanged (R145 to R148). -/
def terminate (s : State) : Out :=
  if s.dec.outOfBounds s.cfg then raiseDec .outOfBoundsWrite s.dec.p s
  else .next { s with grid := s.grid.writeRun (s.dec.cursorIndex s.cfg) s.dec.runlen s.dec.colour,
                      dec := { s.dec.moveCursor s.cfg with phase := .scan } }

/-- RUNLEN, a byte that is neither a run-length byte nor an advance byte (R145, D14). -/
def malformedRun (s : State) : Out := raiseDec .malformedRunSequence s.dec.p s

/-- SCAN, a byte that is no trigger. -/
def passOver (s : State) : Out := onDec Dec.passOver s

/-- A byte follows the one at the scan position, `dec.p + 1 < N` (R133). -/
def Dec.byteFollows (d : Dec) : Bool := decide (d.p + 1 < d.inLen)

/-- SCAN at TOOL_LINE: a trigger if a byte follows (R133, R137). -/
def scanToolLine (s : State) : Out := if s.dec.byteFollows then onDec Dec.trigger s else passOver s

/-- SCAN at ADVANCE_Y_PAINT: a trigger if a byte follows and it is not TOOL_NONE; the lookahead is read only if a byte
follows (R133, R140). -/
def scanAdvancePaint (s : State) : Out :=
  if s.dec.byteFollows then
    match s.load .decStrm (s.dec.p + 1) with
    | .error f => .fault f
    | .ok b => if b = Vocab.toolNone then passOver s else onDec Dec.trigger s
  else passOver s

/-- C_ACC at any opcode but COLOUR_END: the byte is an operand (R73, R88). -/
def takeGroup (b : Byte) (s : State) : Out := onDec (fun d => d.accumulate b) s

/-- The step an opcode is given by DEC's phase (R131, R73): what it does in SCAN, in C_ACC and in RUNLEN is its own; in
C_SKIP it is skipped and in C_SEED it is the seed, whatever its class. `b` is the opcode's byte. -/
def byPhase (b : Byte) (scan acc runLen : State → Out) (s : State) : Out :=
  if s.dec.status = .busy then
    match s.dec.phase with
    | .idle => .fault .noEnabledStep
    | .scan => scan s
    | .cSkip => onDec Dec.skip s
    | .cSeed => onDec (fun d => d.seed b) s
    | .cAcc => acc s
    | .runLen => runLen s
  else .fault .noEnabledStep

/-- The meaning of an opcode that triggers nothing, ends no unpack and adds to no run: passed over in SCAN, an operand in
the colour phases, a fault in RUNLEN (R94, R134, R136, R139, R142, R144). -/
def operandOnly (b : Byte) (s : State) : Out := byPhase b passOver (takeGroup b) malformedRun s

end Sys2Proof.Machine
end

