-- ==== Sys2Proof/Machine/Advance.lean ====
section
/-! DEFINITION. The meanings of the two advance opcodes (spec/43_decoder.md R140, R141). -/

namespace Sys2Proof.Machine

/-- ADVANCE_Y_PAINT (R140): in SCAN a trigger, by the lookahead; in RUNLEN the terminator. -/
def execAdvanceYPaint (s : State) : Out :=
  byPhase (encode .advanceYPaint) scanAdvancePaint (takeGroup (encode .advanceYPaint)) terminate s

/-- ADVANCE_Y_SKIP (R141): passed over in SCAN; in RUNLEN a terminator like ADVANCE_Y_PAINT. -/
def execAdvanceYSkip (s : State) : Out :=
  byPhase (encode .advanceYSkip) passOver (takeGroup (encode .advanceYSkip)) terminate s

end Sys2Proof.Machine
end

