-- ==== Sys2Proof/Machine/Control.lean ====
section
/-! DEFINITION. The meanings of the control opcodes TOOL_NONE, TOOL_LINE, COLOUR_END and TARGET_X_RESET
(spec/43_decoder.md R136 to R139). -/

namespace Sys2Proof.Machine

/-- TOOL_NONE (R136). What it does as the byte after an ADVANCE_Y_PAINT is in that opcode's meaning. -/
def execToolNone (s : State) : Out := operandOnly (encode .toolNone) s

/-- TOOL_LINE (R137): in SCAN a trigger if a byte follows. -/
def execToolLine (s : State) : Out :=
  byPhase (encode .toolLine) scanToolLine (takeGroup (encode .toolLine)) malformedRun s

/-- COLOUR_END (R138): in C_ACC the end of the unpack. -/
def execColourEnd (s : State) : Out :=
  byPhase (encode .colourEnd) passOver (onDec Dec.endColour) malformedRun s

/-- TARGET_X_RESET (R139): it does not write `dec.x`. -/
def execTargetXReset (s : State) : Out := operandOnly (encode .targetXReset) s

end Sys2Proof.Machine
end

