-- ==== Sys2Proof/Machine/Reserved.lean ====
section
/-! DEFINITION. The meanings of the reserved byte values, row by row of spec/opcode_table.json (spec/43_decoder.md R144,
spec/30_encoding.md R66; D14, D16): passed over in SCAN, an operand by the low bits in the colour phases,
MalformedRunSequence in RUNLEN. -/

namespace Sys2Proof.Machine

/-- 0x20 to 0x3F (R144). -/
def execReserved20 (b : Byte) (s : State) : Out := operandOnly (encode (.reserved20 b)) s

/-- 0x42 and 0x43 (R144). -/
def execReserved42 (b : Byte) (s : State) : Out := operandOnly (encode (.reserved42 b)) s

/-- 0x44 to 0x47 (R144). -/
def execReserved44 (b : Byte) (s : State) : Out := operandOnly (encode (.reserved44 b)) s

/-- 0x48 to 0x4F (R144). -/
def execReserved48 (b : Byte) (s : State) : Out := operandOnly (encode (.reserved48 b)) s

/-- 0x50 to 0x5F (R144). -/
def execReserved50 (b : Byte) (s : State) : Out := operandOnly (encode (.reserved50 b)) s

/-- 0x60 to 0x7F (R144). -/
def execReserved60 (b : Byte) (s : State) : Out := operandOnly (encode (.reserved60 b)) s

/-- 0x82 (R144). -/
def execReserved82 (s : State) : Out := operandOnly (encode .reserved82) s

/-- 0x85 (R144). -/
def execReserved85 (s : State) : Out := operandOnly (encode .reserved85) s

/-- 0x86 and 0x87 (R144). -/
def execReserved86 (b : Byte) (s : State) : Out := operandOnly (encode (.reserved86 b)) s

/-- 0x88 to 0x8F (R144). -/
def execReserved88 (b : Byte) (s : State) : Out := operandOnly (encode (.reserved88 b)) s

/-- 0x90 to 0x9F (R144). -/
def execReserved90 (b : Byte) (s : State) : Out := operandOnly (encode (.reserved90 b)) s

/-- 0xA0 to 0xBF (R144). -/
def execReservedA0 (b : Byte) (s : State) : Out := operandOnly (encode (.reservedA0 b)) s

end Sys2Proof.Machine
end

