-- ==== Sys2Proof/Machine/RunAndData.lean ====
section
/-! DEFINITION. The meanings of the two opcodes that carry an operand: RUN and DATA (spec/43_decoder.md R142, R143). -/

namespace Sys2Proof.Machine

/-- `RUN n` (R143): in RUNLEN, `n` is added to the run length. -/
def execRun (n : BitVec 5) (s : State) : Out :=
  byPhase (encode (.run n)) passOver (takeGroup (encode (.run n))) (onDec (fun d => d.addRun (chunkValue n))) s

/-- `DATA g` (R142): in the colour phases, a group of the packed colour token. -/
def execData (g : BitVec 6) (s : State) : Out := operandOnly (encode (.data g)) s

end Sys2Proof.Machine
end

