-- ==== Sys2Proof/Machine/Dispatch.lean ====
section
/-! DEFINITION. One arm for each opcode: what DEC does when the byte at the scan position is this opcode. -/

namespace Sys2Proof.Machine

def exec (i : Instr) (s : State) : Host.Outcome State Fault Refusal :=
  match i with
  | .run n => Sys2Proof.Machine.execRun n s
  | .advanceYPaint => Sys2Proof.Machine.execAdvanceYPaint s
  | .advanceYSkip => Sys2Proof.Machine.execAdvanceYSkip s
  | .toolNone => Sys2Proof.Machine.execToolNone s
  | .toolLine => Sys2Proof.Machine.execToolLine s
  | .colourEnd => Sys2Proof.Machine.execColourEnd s
  | .targetXReset => Sys2Proof.Machine.execTargetXReset s
  | .data g => Sys2Proof.Machine.execData g s
  | .reserved20 b => Sys2Proof.Machine.execReserved20 b s
  | .reserved42 b => Sys2Proof.Machine.execReserved42 b s
  | .reserved44 b => Sys2Proof.Machine.execReserved44 b s
  | .reserved48 b => Sys2Proof.Machine.execReserved48 b s
  | .reserved50 b => Sys2Proof.Machine.execReserved50 b s
  | .reserved60 b => Sys2Proof.Machine.execReserved60 b s
  | .reserved82 => Sys2Proof.Machine.execReserved82 s
  | .reserved85 => Sys2Proof.Machine.execReserved85 s
  | .reserved86 b => Sys2Proof.Machine.execReserved86 b s
  | .reserved88 b => Sys2Proof.Machine.execReserved88 b s
  | .reserved90 b => Sys2Proof.Machine.execReserved90 b s
  | .reservedA0 b => Sys2Proof.Machine.execReservedA0 b s

end Sys2Proof.Machine
end

