-- ==== Sys2Proof/Machine/Encoder.lean ====
section
/-! DEFINITION. The encoder unit ENC (spec/42_encoder.md R100 to R110, R117): START_ENC, and the iteration that scans one
run, emits its colour sequence, its run-length bytes, ADVANCE_Y_PAINT and, at a row's end, the wrap sequence. ENC
executes no opcode; its pass is a loop of the unit itself. -/

namespace Sys2Proof.Machine

/-- `Emit(bs)` (00_scope.md section 4; R16): the bytes go to STRM from `enc.out_len` up. An index at or above STREAM_CAP
does not exist (R42); under a well-formed configuration ENC never gets there (R56; log 20). -/
def emit (bs : List Byte) (s : State) : Except Fault State :=
  if s.enc.outLen + bs.length ≤ s.cfg.streamCap then
    .ok { s with encStrm := s.encStrm.writeList s.enc.outLen bs,
                 enc := { s.enc with outLen := s.enc.outLen + bs.length } }
  else .error (.noSuchAddress .encStrm (max s.enc.outLen s.cfg.streamCap))

/-- START_ENC on ENC's registers, up to the sample count check (R101). -/
def Enc.restart (e : Enc) : Enc :=
  { e with toUnitCtl := e.toUnitCtl.clear, pos := 0, x := 0, y := 0, outLen := 0 }

/-- START_ENC (R101): ignored while ENC is BUSY (R204); DimensionMismatch where the sample count is not NSAMP (R176);
otherwise TOOL_LINE is emitted and ENC is BUSY. What STRM holds above `enc.out_len` is then unspecified (R47; log 8). Where the
platform has one STRM, a START that would write a stream DEC owns is refused (R55; log 19). -/
def startEnc (s : State) : Out :=
  if s.encBusy then .next s
  else if s.enc.srcLen ≠ s.cfg.nsamp then
    raiseEnc .dimensionMismatch s.enc.srcLen { s with enc := s.enc.restart }
  else if s.cfg.sharedStrm && s.decBusy then .refused (.ownedMemory .encStrm)
  else
    match emit [Vocab.toolLine] { s with enc := s.enc.restart, encStrm := [], contents := s.contents.renewEncStrm } with
    | .error f => .fault f
    | .ok t => .next { t with enc := { t.enc with toUnitCtl := t.enc.toUnitCtl.begin } }

/-- How far a run goes on: the number of samples equal to `v` from index `a` up, at most `n` of them, read one by one
(R103). `n` is the room left in the row, so the bound is tested before a sample is read (D31). -/
def scanRun (s : State) (v : Byte) : Nat → Nat → Except Fault Nat
  | _, 0 => .ok 0
  | a, n + 1 =>
    match s.load .src a with
    | .error f => .error f
    | .ok b =>
      if b = v then
        match scanRun s v (a + 1) n with
        | .error f => .error f
        | .ok k => .ok (k + 1)
      else .ok 0

/-- The run at the sample pointer: its sample and its length `r`, `1 ≤ r ≤ W - enc.x` (R103). -/
def findRun (s : State) : Except Fault Run :=
  match s.load .src s.enc.pos with
  | .error f => .error f
  | .ok v =>
    match scanRun s v (s.enc.pos + 1) (s.cfg.w - (s.enc.x + 1)) with
    | .error f => .error f
    | .ok k => .ok { sample := v, len := k + 1 }

/-- The bytes an iteration emits for its run (R104 to R108). -/
def runBytes (c : Config) (x : Nat) (r : Run) : List Byte :=
  paintSeq r.sample r.len ++ (if x + r.len = c.w then wrapSeq else [])

/-- The cursor and the sample pointer after a run, and the end of the pass (R108, R109). -/
def Enc.afterRun (c : Config) (e : Enc) (r : Nat) : Enc :=
  let e := if e.x + r = c.w then { e with x := 0, y := e.y + 1 } else { e with x := e.x + r }
  let e := { e with pos := e.pos + r }
  if e.pos = c.nsamp then { e with toUnitCtl := e.toUnitCtl.finish } else e

/-- ITERATE, the whole step (R102). -/
def iterate (s : State) : Out :=
  match findRun s with
  | .error f => .fault f
  | .ok r =>
    match emit (runBytes s.cfg s.enc.x r) s with
    | .error f => .fault f
    | .ok t => .next { t with enc := t.enc.afterRun s.cfg r.len }

/-- ENC's turn: an iteration while BUSY; otherwise ENC has no enabled step and nothing changes (R27, R188;
log 6). -/
def encTurn (s : State) : Out := if s.encBusy then iterate s else .next s

end Sys2Proof.Machine
end

