-- ==== Sys2Proof/Machine/HostPort.lean ====
section
/-! DEFINITION. What the host can do to the block: the control and status registers (spec/10_state.md R28), the memories
no BUSY unit owns (spec/20_memory.md R55, spec/70_reset_and_hazards.md R210), and hardware reset (R200). -/

namespace Sys2Proof.Machine

/-- A BUSY unit owns this memory (R55, D22). Ownership ends with the step to DONE or FAULT, as D22 says; that the host
then sees what the unit wrote without first having read the status is the model's choice (log 24). -/
def State.owned (s : State) : Space → Bool
  | .src => s.encBusy
  | .encStrm => s.encBusy || (s.cfg.sharedStrm && s.decBusy)
  | .decStrm => s.decBusy || (s.cfg.sharedStrm && s.encBusy)
  | .grid => s.decBusy

/-- The value of a register as a 32-bit number, zero-extended (R12, R28). The start bits read as 0. -/
def State.regValue (s : State) : HostReg → Word
  | .encCtrlStart => 0
  | .encStatus => s.enc.status.code.setWidth 32
  | .encErr => s.enc.err.code.setWidth 32
  | .encErrPos => BitVec.ofNat 32 s.enc.errPos
  | .encSrcLen => BitVec.ofNat 32 s.enc.srcLen
  | .encOutLen => BitVec.ofNat 32 s.enc.outLen
  | .encX => BitVec.ofNat 32 s.enc.x
  | .encY => BitVec.ofNat 32 s.enc.y
  | .encPos => BitVec.ofNat 32 s.enc.pos
  | .decCtrlStart => 0
  | .decStatus => s.dec.status.code.setWidth 32
  | .decErr => s.dec.err.code.setWidth 32
  | .decErrPos => BitVec.ofNat 32 s.dec.errPos
  | .decInLen => BitVec.ofNat 32 s.dec.inLen
  | .decP => BitVec.ofNat 32 s.dec.p
  | .decX => BitVec.ofNat 32 s.dec.x
  | .decY => BitVec.ofNat 32 s.dec.y
  | .decPhase => s.dec.phase.code.setWidth 32

/-- A host read of this register has a meaning in this state: any read of a unit that is not BUSY, and of a BUSY unit
its status (R28, R210, D22) and its start bit, which reads as 0 (R28; log 16). The other registers are read from the
step to DONE or FAULT on, the status read before or not: DESIGN CHOICE (R50 (c), R51; log 24). -/
def State.readable (s : State) : HostReg → Bool
  | .encCtrlStart => true
  | .encStatus => true
  | .encErr => !s.encBusy
  | .encErrPos => !s.encBusy
  | .encSrcLen => !s.encBusy
  | .encOutLen => !s.encBusy
  | .encX => !s.encBusy
  | .encY => !s.encBusy
  | .encPos => !s.encBusy
  | .decCtrlStart => true
  | .decStatus => true
  | .decErr => !s.decBusy
  | .decErrPos => !s.decBusy
  | .decInLen => !s.decBusy
  | .decP => !s.decBusy
  | .decX => !s.decBusy
  | .decY => !s.decBusy
  | .decPhase => !s.decBusy

/-- The host reads a register (R28). -/
def hostReadReg (r : HostReg) (s : State) : Out :=
  if s.readable r then .next { s with hostData := s.regValue r } else .refused (.busyUnitRegister r)

/-- The host writes `ENC_SRC_LEN`: ignored while ENC is BUSY (R28, R210). -/
def writeSrcLen (v : Word) (s : State) : Out :=
  if s.encBusy then .next s else .next { s with enc := { s.enc with srcLen := v.toNat } }

/-- The host writes `DEC_IN_LEN`: ignored while DEC is BUSY; a value above STREAM_CAP cannot be written, and the register
keeps its value (R28; log 13). -/
def writeInLen (v : Word) (s : State) : Out :=
  if s.decBusy then .next s
  else if v.toNat ≤ s.cfg.streamCap then .next { s with dec := { s.dec with inLen := v.toNat } }
  else .next s

/-- The host writes a register (R28). A start bit is bit 0 of the value; writing 0 does nothing (log 14). -/
def hostWriteReg (r : HostReg) (v : Word) (s : State) : Out :=
  match r with
  | .encCtrlStart => if v.getLsbD 0 then startEnc s else .next s
  | .encSrcLen => writeSrcLen v s
  | .decCtrlStart => if v.getLsbD 0 then startDec s else .next s
  | .decInLen => writeInLen v s
  | .encStatus => .refused (.readOnlyRegister r)
  | .encErr => .refused (.readOnlyRegister r)
  | .encErrPos => .refused (.readOnlyRegister r)
  | .encOutLen => .refused (.readOnlyRegister r)
  | .encX => .refused (.readOnlyRegister r)
  | .encY => .refused (.readOnlyRegister r)
  | .encPos => .refused (.readOnlyRegister r)
  | .decStatus => .refused (.readOnlyRegister r)
  | .decErr => .refused (.readOnlyRegister r)
  | .decErrPos => .refused (.readOnlyRegister r)
  | .decP => .refused (.readOnlyRegister r)
  | .decX => .refused (.readOnlyRegister r)
  | .decY => .refused (.readOnlyRegister r)
  | .decPhase => .refused (.readOnlyRegister r)

/-- The register REG_MAP has at a bus address (D6; log 4). Where the map lists several names at one address, the first in
the list is reached, by reads and by writes: DESIGN CHOICE, the spec says nothing of such a map (log 23). -/
def regAt (c : Config) (a : Nat) : Option HostReg :=
  match c.regMap.find? (fun e => decide (e.1 = a)) with
  | some e => some e.2
  | none => none

/-- The host writes one byte of a memory no BUSY unit owns (R55). -/
def hostWriteMem (sp : Space) (a : Nat) (b : Byte) (s : State) : Out :=
  if s.owned sp then .refused (.ownedMemory sp)
  else
    match s.store sp a b with
    | .error f => .fault f
    | .ok t => .next t

/-- The host reads one byte of a memory no BUSY unit owns (R55). What a unit wrote is read from its step to DONE or FAULT
on, even by a host that has not read the terminal status: DESIGN CHOICE, since R50 (c) and R51 promise it only once the
host has (log 24). -/
def hostReadMem (sp : Space) (a : Nat) (s : State) : Out :=
  if s.owned sp then .refused (.ownedMemory sp)
  else
    match s.load sp a with
    | .error f => .fault f
    | .ok b => .next { s with hostData := b.zeroExtend 32 }

/-- Hardware reset, in any state (R200): every register of both units at R33's value, nothing written in any memory, whose
contents are unspecified anew (R47; log 9). The configuration is not state (R32), and the turns to come and the host's last read are the host's. -/
def hardwareReset (s : State) : State :=
  { s with enc := Enc.reset, dec := Dec.reset, src := [], encStrm := [], decStrm := [], grid := [],
           contents := s.contents.renew }

/-- One turn of the host. -/
def hostTurn (c : HostCmd) (s : State) : Out :=
  match c with
  | .writeReg r v => hostWriteReg r v s
  | .readReg r => hostReadReg r s
  | .busWrite a v =>
    match regAt s.cfg a with
    | some r => hostWriteReg r v s
    | none => .refused (.unmappedBusAddress a)
  | .busRead a =>
    match regAt s.cfg a with
    | some r => hostReadReg r s
    | none => .refused (.unmappedBusAddress a)
  | .writeMem sp a b => hostWriteMem sp a b s
  | .readMem sp a => hostReadMem sp a s
  | .reset => .next (hardwareReset s)

end Sys2Proof.Machine
end

