-- ==== Sys2Proof/Machine/Step.lean ====
section
/-! DEFINITION. One step of the machine: one turn of ENC, of DEC or of the host (spec/00_scope.md R9; log 5). -/

namespace Sys2Proof.Machine

/-- DEC's turn: while BUSY, the end of the stream if the scan position is there, otherwise the opcode at the scan
position (R131, R132); a DEC that is not BUSY has no enabled step and nothing changes (R27, R188;
log 6). -/
def decTurn (s : State) : Host.Outcome State Fault Refusal :=
  if s.decBusy then
    if s.dec.p = s.dec.inLen then endOfStream s
    else
      match fetchByte s with
      | .error f => .fault f
      | .ok b => exec (decodeByte b) s
  else .next s

/-- One step. The head of `turns` says who moves; where it is empty, DEC moves if it is BUSY, otherwise ENC (log 5). -/
def step (s : State) : Host.Outcome State Fault Refusal :=
  match s.turns with
  | [] => if s.decBusy then decTurn s else encTurn s
  | .enc :: rest => encTurn { s with turns := rest }
  | .dec :: rest => decTurn { s with turns := rest }
  | .host c :: rest => hostTurn c { s with turns := rest }

/-- `s` with an opcode stored at the scan position, DEC BUSY in a phase that has a step, a stream that reaches past it,
and DEC's turn next (log 18). -/
def State.withFetchWord (s : State) (nbits w : Nat) : State :=
  let b : Byte := (layBytes nbits w).headD 0
  let s := s.setMem .decStrm ((s.memOf .decStrm).write s.dec.p b)
  { s with
    dec := { s.dec with
      status := .busy,
      phase := if s.dec.phase = .idle then .scan else s.dec.phase,
      inLen := max s.dec.inLen (s.dec.p + 1) },
    turns := if s.turns = [] then [] else .dec :: s.turns }

end Sys2Proof.Machine
end

