-- ==== Sys2Proof/Machine/Streams.lean ====
section
/-! DEFINITION. Streams as data: the pseudo-instructions and their exact expansions (spec/30_encoding.md R75), the grammar
of the streams ENC produces (spec/42_encoder.md R112), and the implied tool of a stream position (R113). No step uses
these; statements about whole streams do. -/

namespace Sys2Proof.Machine

/-- The bytes of one line (R74, R75). `ROW s` paints a whole row of one value. -/
def asmBytes (c : Config) : AsmLine → List Byte
  | .opcode i => [encode i]
  | .byte v => [v]
  | .colour s => pack s
  | .runLen l => chunks l
  | .wrap => wrapSeq
  | .paint s l => paintSeq s l
  | .row s => paintSeq s c.w ++ wrapSeq

/-- The bytes of a program: the lines in order (R74). -/
def assemble (c : Config) (lines : List AsmLine) : List Byte := lines.flatMap (asmBytes c)

/-- The bytes of one row of a sketch: its runs, then the wrap sequence (R112, `row`). -/
def rowBytes (row : List Run) : List Byte := row.flatMap (fun r => paintSeq r.sample r.len) ++ wrapSeq

/-- The bytes of a sketch: TOOL_LINE, then its rows (R112, `stream`). -/
def sketchBytes (rows : List (List Run)) : List Byte := Vocab.toolLine :: rows.flatMap rowBytes

/-- The samples of one row. -/
def rowSamples (row : List Run) : List Byte := row.flatMap (fun r => List.replicate r.len r.sample)

/-- The image a sketch stands for, row-major (R41). -/
def sketchSamples (rows : List (List Run)) : List Byte := rows.flatMap rowSamples

/-- What a byte of the stream sets the tool to, by the labels of the vocabulary (R62, R113). -/
def toolAfter (t : Tool) (b : Byte) : Tool :=
  if b = Vocab.toolNone then .none else if b = Vocab.toolLine then .line else t

/-- The implied tool after the bytes seen so far (R29, R113). Before the first of them it is NONE, the model's choice
(log 21). -/
def impliedTool (bs : List Byte) : Tool := bs.foldl toolAfter .none

end Sys2Proof.Machine
end

