-- ==== Sys2Proof/Machine/Assembler.lean ====
section
/-! DEFINITION. The textual syntax of streams (spec/30_encoding.md R74, R75): one opcode a line or separated by `;`, a
comment from `#` to the end of the line, control bytes by their names, `DATA g`, `RUN n`, `BYTE v` and the
pseudo-instructions. A notation for programs; no step uses it. Text is a list of characters. How numbers are written is
the model's choice (log 22). -/

namespace Sys2Proof.Machine

/-- Cut a list of characters at every separator. -/
def splitChars (sep : Char → Bool) : List Char → List (List Char)
  | [] => [[]]
  | c :: cs =>
    match splitChars sep cs with
    | [] => if sep c then [[], []] else [[c]]
    | w :: ws => if sep c then [] :: w :: ws else (c :: w) :: ws

/-- The part of a line before its comment (R74). -/
def stripComment (line : List Char) : List Char := line.takeWhile (fun c => c != '#')

/-- The words of one opcode; a comma, as in `PAINT s, L`, separates words like a space does. -/
def wordsOf (cs : List Char) : List (List Char) :=
  (splitChars (fun c => c == ' ' || c == ',' || c == '\t' || c == '\r') cs).filter (fun w => w != [])

/-- The value of a digit, up to 15. -/
def digitOf (c : Char) : Option Nat :=
  let n := c.toNat
  if 48 ≤ n ∧ n ≤ 57 then some (n - 48)
  else if 65 ≤ n ∧ n ≤ 70 then some (n - 55)
  else if 97 ≤ n ∧ n ≤ 102 then some (n - 87)
  else none

/-- A number in a base, from its digits. -/
def digitsIn (base : Nat) : Nat → List Char → Option Nat
  | acc, [] => some acc
  | acc, c :: cs =>
    match digitOf c with
    | some d => if d < base then digitsIn base (acc * base + d) cs else none
    | none => none

/-- A number: decimal, or hexadecimal after `0x` (00_scope.md section 4). -/
def numberOf : List Char → Option Nat
  | [] => none
  | ['0', 'x'] => none
  | '0' :: 'x' :: ds => digitsIn 16 0 ds
  | ds => digitsIn 10 0 ds

/-- A number of at most `hi`. -/
def numberUpTo (hi : Nat) (w : List Char) : Option Nat :=
  match numberOf w with
  | some n => if n ≤ hi then some n else none
  | none => none

/-- The control bytes by their names (R62, R74). -/
def controlOf (name : String) : Option Instr :=
  if name = "TOOL_NONE" then some .toolNone
  else if name = "TOOL_LINE" then some .toolLine
  else if name = "COLOUR_END" then some .colourEnd
  else if name = "TARGET_X_RESET" then some .targetXReset
  else if name = "ADVANCE_Y_PAINT" then some .advanceYPaint
  else if name = "ADVANCE_Y_SKIP" then some .advanceYSkip
  else none

/-- One line from its words; `none` where the words are no line of the syntax. -/
def lineOf : List (List Char) → Option AsmLine
  | [name] =>
    if String.ofList name = "WRAP" then some .wrap else (controlOf (String.ofList name)).map AsmLine.opcode
  | [name, a] =>
    if String.ofList name = "DATA" then (numberUpTo 63 a).map (fun n => .opcode (.data (BitVec.ofNat 6 n)))
    else if String.ofList name = "RUN" then (numberUpTo 31 a).map (fun n => .opcode (.run (BitVec.ofNat 5 n)))
    else if String.ofList name = "BYTE" then (numberUpTo 255 a).map (fun n => .byte (BitVec.ofNat 8 n))
    else if String.ofList name = "COLOUR" then (numberUpTo 255 a).map (fun n => .colour (BitVec.ofNat 8 n))
    else if String.ofList name = "RUNLEN" then (numberOf a).map .runLen
    else if String.ofList name = "ROW" then (numberUpTo 255 a).map (fun n => .row (BitVec.ofNat 8 n))
    else none
  | [name, a, b] =>
    if String.ofList name = "PAINT" then
      match numberUpTo 255 a, numberOf b with
      | some s, some l => some (.paint (BitVec.ofNat 8 s) l)
      | _, _ => none
    else none
  | _ => none

/-- The pieces of a text, one opcode each: lines, comments off, cut at `;`, blank ones left out. -/
def piecesOf (text : List Char) : List (List (List Char)) :=
  (((splitChars (fun c => c == '\n') text).map stripComment).flatMap
    (fun line => (splitChars (fun c => c == ';') line).map wordsOf)).filter (fun ws => ws != [])

/-- The lines of a text, or none where a piece is no line of the syntax. -/
def parseLines : List (List (List Char)) → Option (List AsmLine)
  | [] => some []
  | ws :: rest =>
    match lineOf ws, parseLines rest with
    | some l, some ls => some (l :: ls)
    | _, _ => none

/-- The stream a text stands for. -/
def assembleText (c : Config) (text : List Char) : Option (List Byte) :=
  (parseLines (piecesOf text)).map (assemble c)

end Sys2Proof.Machine
end

