-- ==== Sys2Proof/Safety.lean ====
section
/-! DEFINITION. What a good state and a good run are: the words statements about the machine are made of. -/

namespace Sys2Proof.Machine

/-- Every index below `n` has been written. -/
abbrev Loaded (m : Memory) (n : Nat) : Prop := ∀ i, i < n → (m.read i).isSome = true

/-- The bytes `bs` are written in `m` from index `a` up. -/
abbrev HoldsAt (m : Memory) (a : Nat) (bs : List Byte) : Prop := ∀ i, i < bs.length → m.read (a + i) = bs[i]?

/-- The bytes `bs` stand in a space from index `a` up, written or not: what a read of each gives (R46, R47). -/
abbrev SpaceHolds (s : State) (sp : Space) (a : Nat) (bs : List Byte) : Prop :=
  ∀ i, i < bs.length → some (s.byteAt sp (a + i)) = bs[i]?

/-- DEC is BUSY in this phase. -/
abbrev DecIn (s : State) (ph : Phase) : Prop := s.dec.status = .busy ∧ s.dec.phase = ph

/-- The image in SRC, row-major (R41). -/
abbrev SrcHolds (s : State) (img : List Byte) : Prop := img.length = s.cfg.nsamp ∧ SpaceHolds s .src 0 img

/-- The memories keep their canonical form and hold no index outside their space (R40 to R43, R56). -/
abbrev MemOk (s : State) : Prop :=
  (s.src.wf = true ∧ s.src.within s.cfg.nsamp = true) ∧
  (s.encStrm.wf = true ∧ s.encStrm.within s.cfg.streamCap = true) ∧
  (s.decStrm.wf = true ∧ s.decStrm.within s.cfg.streamCap = true) ∧
  (s.grid.wf = true ∧ s.grid.within s.cfg.nsamp = true)

/-- A unit has an error code exactly in FAULT, and an error position only then (R27, R171, R179). -/
abbrev CtlOk (u : UnitCtl) : Prop :=
  (u.status = .fault ↔ u.err ≠ .none) ∧ (u.err = .none → u.errPos = 0) ∧ u.errPos < 2 ^ 32

/-- ENC's registers (R11 to R17, R110, R117). -/
abbrev EncOk (s : State) : Prop :=
  CtlOk s.enc.toUnitCtl ∧ (s.enc.err = .none ∨ s.enc.err = .dimensionMismatch) ∧ s.enc.srcLen < 2 ^ 32 ∧
  s.enc.pos = s.enc.y * s.cfg.w + s.enc.x ∧ s.enc.x < s.cfg.w ∧ s.enc.y ≤ s.cfg.h ∧
  (s.enc.status = .busy → s.enc.pos < s.cfg.nsamp ∧ 1 ≤ s.enc.outLen) ∧
  (s.enc.status = .done → s.enc.pos = s.cfg.nsamp) ∧
  (s.enc.status = .idle ∨ s.enc.status = .fault → s.enc.pos = 0 ∧ s.enc.outLen = 0) ∧
  s.enc.outLen ≤ 1 + s.enc.pos * 9 + s.enc.y * 4 ∧ Loaded s.encStrm s.enc.outLen

/-- DEC's registers (R19 to R26, R86, R171) and the cells of GRID, which are all written once DEC was started (R47). -/
abbrev DecOk (s : State) : Prop :=
  CtlOk s.dec.toUnitCtl ∧ s.dec.err ≠ .unsupportedExtension ∧ s.dec.err ≠ .dimensionMismatch ∧
  s.dec.inLen ≤ s.cfg.streamCap ∧ s.dec.p ≤ s.cfg.streamCap ∧
  (s.dec.status = .busy → s.dec.p ≤ s.dec.inLen) ∧
  s.dec.x < s.cfg.w ∧ s.dec.y ≤ s.cfg.h ∧
  (s.dec.phase = .idle ↔ s.dec.status = .idle) ∧ (s.dec.status = .done → s.dec.phase = .scan) ∧
  (s.dec.status = .busy → s.dec.phase = .cSkip → s.dec.p < s.dec.inLen) ∧
  (s.dec.status ≠ .idle → Loaded s.grid s.cfg.nsamp)

/-- The invariant of the machine: a configuration within its bounds, memories and registers as their rules say, and the
two units never BUSY together on one STRM (R55). Every step keeps it, and it holds at reset. -/
abbrev Inv (s : State) : Prop :=
  s.cfg.wf ∧ MemOk s ∧ EncOk s ∧ DecOk s ∧
  (s.cfg.sharedStrm = true → ¬(s.enc.status = .busy ∧ s.dec.status = .busy))

/-- Every cell of GRID from the cursor on still holds the 0 of the zero fill (R150). -/
abbrev UnpaintedZero (s : State) : Prop :=
  ∀ i, s.dec.cursorIndex s.cfg ≤ i → i < s.cfg.nsamp → s.grid.read i = some 0

/-- A turn of the host that issues START_DEC, by name or by bus address, or a hardware reset (R28, R180). -/
def restartsDec (c : Config) : Turn → Bool
  | .host (.writeReg .decCtrlStart v) => v.getLsbD 0
  | .host (.busWrite a v) => decide (regAt c a = some .decCtrlStart) && v.getLsbD 0
  | .host .reset => true
  | _ => false

/-- A turn of the host that issues START_ENC, by name or by bus address, or a hardware reset (R28, R180). -/
def restartsEnc (c : Config) : Turn → Bool
  | .host (.writeReg .encCtrlStart v) => v.getLsbD 0
  | .host (.busWrite a v) => decide (regAt c a = some .encCtrlStart) && v.getLsbD 0
  | .host .reset => true
  | _ => false

/-- The host reads register `r` and is answered `n`; nothing but the host's last read changes (R28; log 11). -/
abbrev HostReads (s : State) (r : HostReg) (n : Nat) : Prop :=
  ∃ v : Word, v.toNat = n ∧ hostTurn (.readReg r) s = .next { s with hostData := v }

/-- `k` steps of the machine. -/
abbrev runSteps (k : Nat) (s : State) : Out := Host.Core.run Sys2Proof.core k s

/-- A pass of ENC has just been started (R101): BUSY, at the first sample, TOOL_LINE emitted. -/
abbrev EncStarted (s : State) : Prop :=
  s.enc.status = .busy ∧ s.enc.pos = 0 ∧ s.enc.x = 0 ∧ s.enc.y = 0 ∧ s.enc.outLen = 1 ∧
  s.encStrm.read 0 = some Vocab.toolLine

/-- A pass of DEC has just been started (R130): BUSY in SCAN, at the first byte, cursor (0,0), GRID all zeros. -/
abbrev DecStarted (s : State) : Prop :=
  DecIn s .scan ∧ s.dec.p = 0 ∧ s.dec.x = 0 ∧ s.dec.y = 0 ∧ ∀ i, i < s.cfg.nsamp → s.grid.read i = some 0

end Sys2Proof.Machine
end

