-- ==== Sys2Proof/Certificates/Slice0/Obligations.lean ====
section
/-! DEFINITION. The statements for the provers. Each says what the machine does, in the words of a numbered rule of spec/
(the docstring names it) or in words that follow from several. Registers are written out as record updates. -/

open Sys2Proof Sys2Proof.Machine

/-! ### Reset -/

/-- R33: the registers after a hardware reset. The contents of the memories are unspecified, so nothing is said of
them here. -/
def Obligations.ResetLeavesTheRuleValues : Prop :=
  let s := State.reset
  (s.enc.status = .idle ∧ s.enc.err = .none ∧ s.enc.errPos = 0 ∧ s.enc.srcLen = 0 ∧ s.enc.pos = 0 ∧
    s.enc.x = 0 ∧ s.enc.y = 0 ∧ s.enc.outLen = 0) ∧
  (s.dec.status = .idle ∧ s.dec.err = .none ∧ s.dec.errPos = 0 ∧ s.dec.inLen = 0 ∧ s.dec.p = 0 ∧
    s.dec.phase = .idle ∧ s.dec.x = 0 ∧ s.dec.y = 0 ∧ s.dec.acc = 0 ∧ s.dec.colour = 0 ∧ s.dec.runlen = 0)

/-- A reset in any state, BUSY or not, writes every register to its reset value and leaves neither unit an enabled step
(R200). Afterwards no byte of a memory is written and every memory's contents have a new number: a read of any byte gives
a free value, which is the model's form of "unspecified contents" (log 7, log 9). -/
def Obligations.HardwareResetFromAnyState : Prop :=
  ∀ (s : State) (rest : List Turn), s.turns = .host .reset :: rest →
    ∃ t, step s = .next t ∧ t.enc = State.reset.enc ∧ t.dec = State.reset.dec ∧ t.cfg = s.cfg ∧
      (∀ sp a, (t.memOf sp).read a = none) ∧
      (t.contents.src = s.contents.src + 1 ∧ t.contents.encStrm = s.contents.encStrm + 1 ∧
        t.contents.decStrm = s.contents.decStrm + 1 ∧ t.contents.grid = s.contents.grid + 1) ∧
      encTurn t = .next t ∧ decTurn t = .next t

/-- The machine starts in a good state. -/
def Obligations.ResetMeetsTheInvariant : Prop := Inv State.reset

/-! ### Encoding -/

/-- Decoding the byte of a well-formed opcode gives the opcode back, every operand at every value (R60, R61, R62). -/
def Obligations.DecodeOfEncodeIsTheOpcode : Prop :=
  ∀ (i : Instr) (rest : List Byte), i.wf = true → decode (encode i :: rest) = .ok (i, rest)

/-- Every byte is the byte of the opcode it decodes to, and that opcode is well formed (R62). -/
def Obligations.EncodeOfDecodeIsTheByte : Prop :=
  ∀ b : Byte, encode (decodeByte b) = b ∧ (decodeByte b).wf = true

/-- R72: the class of a byte is a total function of its value. -/
def Obligations.ByteClassFollowsTheRanges : Prop :=
  ∀ b : Byte, (decodeByte b).byteClass =
    if b.toNat ≤ 0x1F then .run else if b = 0x40 then .advPaint else if b = 0x41 then .advSkip
    else if b = 0x80 then .toolNone else if b = 0x81 then .toolLine else if b = 0x83 then .colourEnd
    else if b = 0x84 then .targetXReset else if 0xC0 ≤ b.toNat then .data else .reserved

/-- Every byte is of exactly one row of the opcode table, the row of the opcode it decodes to (R62). -/
def Obligations.EveryByteIsInOneRow : Prop :=
  ∀ b : Byte, ∀ k : Fin 20, (opcodeTable[k.val]?.map (fun r => r.covers b)) = some (decide (k.val = (decodeByte b).rowIndex))

/-- Words written bit by bit from the formats of R61 and the values of R62. -/
def Obligations.WrittenWordsDecode : Prop :=
  decodeByte 0b00010101#8 = .run 21 ∧ decodeByte 0b11000011#8 = .data 3 ∧ decodeByte 0b11111111#8 = .data 63 ∧
  decodeByte 0b01000000#8 = .advanceYPaint ∧ decodeByte 0b01000001#8 = .advanceYSkip ∧
  decodeByte 0b10000000#8 = .toolNone ∧ decodeByte 0b10000001#8 = .toolLine ∧
  decodeByte 0b10000011#8 = .colourEnd ∧ decodeByte 0b10000100#8 = .targetXReset ∧
  decodeByte 0b10000010#8 = .reserved82 ∧ decodeByte 0b01111111#8 = .reserved60 0x7F ∧
  decodeByte 0b10111111#8 = .reservedA0 0xBF

/-! ### A step -/

/-- A step runs the opcode that stands at the scan position: when it is DEC's turn, DEC is BUSY, the stream has not ended
and the byte at `dec.p` decodes to `i`, the step is `exec i`, on the state with the turn taken off the list. `exec` itself
moves `dec.p` (R131). That an empty list gives DEC the turn whenever it is BUSY, even with ENC BUSY, is the model's own
scheduler (log 5, DESIGN CHOICE). -/
def Obligations.StepRunsTheDecodedOpcode : Prop :=
  ∀ (s : State) (b : Byte) (i : Instr), s.dec.status = .busy → s.dec.p ≠ s.dec.inLen → fetchByte s = .ok b →
    decode [b] = .ok (i, []) →
    (s.turns = [] → step s = exec i s) ∧
    (∀ rest, s.turns = .dec :: rest → step s = exec i { s with turns := rest })

/-- R132: the end of the stream, by phase. C_SKIP cannot occur there in a state that meets the invariant. -/
def Obligations.EndOfStreamByPhase : Prop :=
  ∀ s : State, s.dec.status = .busy → s.dec.p = s.dec.inLen →
    (s.dec.phase = .scan → decTurn s = .next { s with dec := { s.dec with status := .done } }) ∧
    (Inv s → s.dec.phase ≠ .cSkip) ∧
    (s.dec.phase = .cSeed ∨ s.dec.phase = .cAcc →
      decTurn s = .next { s with dec := { s.dec with
        status := .fault, err := .malformedColourSequence, errPos := s.dec.p % 2 ^ 32 } }) ∧
    (s.dec.phase = .runLen →
      decTurn s = .next { s with dec := { s.dec with
        status := .fault, err := .malformedRunSequence, errPos := s.dec.p % 2 ^ 32 } })

/-- A unit in IDLE, DONE or FAULT does nothing on its turn (R27, R188). -/
def Obligations.UnitsNotBusyDoNothing : Prop :=
  ∀ s : State, (s.enc.status ≠ .busy → encTurn s = .next s) ∧ (s.dec.status ≠ .busy → decTurn s = .next s)

/-! ### What each opcode does, phase by phase -/

/-- Every opcode but TOOL_LINE and ADVANCE_Y_PAINT is passed over in SCAN: `RUN`, `DATA`, COLOUR_END, TOOL_NONE,
TARGET_X_RESET, ADVANCE_Y_SKIP and every reserved value advance `dec.p` and do nothing else (R134, R136, R138, R139, R141
to R144). -/
def Obligations.NonTriggersArePassedOver : Prop :=
  ∀ (i : Instr) (s : State), DecIn s .scan → i ≠ .toolLine → i ≠ .advanceYPaint →
    exec i s = .next { s with dec := { s.dec with p := s.dec.p + 1 } }

/-- TOOL_LINE in SCAN triggers if a byte follows, and is passed over if it is the last byte (R133, R137). -/
def Obligations.ToolLineTriggersIfAByteFollows : Prop :=
  ∀ s : State, DecIn s .scan →
    exec .toolLine s = .next { s with dec := { s.dec with
      p := s.dec.p + 1, phase := if s.dec.p + 1 < s.dec.inLen then .cSkip else .scan } }

/-- ADVANCE_Y_PAINT in SCAN triggers if a byte follows and it is not TOOL_NONE; it is passed over if it is the last byte
or TOOL_NONE follows (R133, R140). -/
def Obligations.AdvancePaintTriggersByLookahead : Prop :=
  ∀ s : State, DecIn s .scan →
    (s.dec.inLen ≤ s.dec.p + 1 →
      exec .advanceYPaint s = .next { s with dec := { s.dec with p := s.dec.p + 1 } }) ∧
    (s.dec.p + 1 < s.dec.inLen → ∀ b, s.load .decStrm (s.dec.p + 1) = .ok b →
      exec .advanceYPaint s = .next { s with dec := { s.dec with
        p := s.dec.p + 1, phase := if b = 0x80 then .scan else .cSkip } })

/-- R133 and R134: the SCAN step. At the end of the stream DEC is DONE; a TOOL_LINE, or an ADVANCE_Y_PAINT not followed by
TOOL_NONE, with a byte after it, leads to C_SKIP; any other byte is passed over. -/
def Obligations.ScanStepFollowsTheTriggerRule : Prop :=
  ∀ s : State, DecIn s .scan →
    (s.dec.p = s.dec.inLen → decTurn s = .next { s with dec := { s.dec with status := .done } }) ∧
    (s.dec.p ≠ s.dec.inLen → ∀ b, fetchByte s = .ok b →
      ((s.dec.p + 1 < s.dec.inLen ∧ b = 0x81) ∨
        (s.dec.p + 1 < s.dec.inLen ∧ b = 0x40 ∧ ∃ n, s.load .decStrm (s.dec.p + 1) = .ok n ∧ n ≠ 0x80) →
        decTurn s = .next { s with dec := { s.dec with p := s.dec.p + 1, phase := .cSkip } }) ∧
      (s.dec.inLen ≤ s.dec.p + 1 ∨ (b = 0x40 ∧ s.load .decStrm (s.dec.p + 1) = .ok 0x80) ∨ (b ≠ 0x81 ∧ b ≠ 0x40) →
        decTurn s = .next { s with dec := { s.dec with p := s.dec.p + 1 } }))

/-- In C_SKIP every opcode, of any class, is skipped (R73, R86). -/
def Obligations.EveryOpcodeIsSkippedAfterATrigger : Prop :=
  ∀ (i : Instr) (s : State), DecIn s .cSkip →
    exec i s = .next { s with dec := { s.dec with p := s.dec.p + 1, phase := .cSeed } }

/-- In C_SEED every opcode, of any class, gives the seed: the low two bits of its byte (R73, R87). -/
def Obligations.EveryOpcodeSeedsTheAccumulator : Prop :=
  ∀ (i : Instr) (s : State), DecIn s .cSeed →
    exec i s = .next { s with dec := { s.dec with
      acc := BitVec.ofNat 32 ((encode i).toNat % 4), p := s.dec.p + 1, phase := .cAcc } }

/-- In C_ACC every opcode but COLOUR_END, of any class, appends the low six bits of its byte: the accumulator becomes
`((acc << 6) | (b & 0x3F)) mod 2^32` (R73, R88, R142). -/
def Obligations.EveryOtherOpcodeIsAccumulated : Prop :=
  ∀ (i : Instr) (s : State), DecIn s .cAcc → i ≠ .colourEnd →
    exec i s = .next { s with dec := { s.dec with
      acc := BitVec.ofNat 32 (s.dec.acc.toNat * 64 + (encode i).toNat % 64), p := s.dec.p + 1 } }

/-- COLOUR_END in C_ACC takes the sample from bits 15:8 of the accumulator, clears the run length and begins the
run-length read (R89, R138). -/
def Obligations.ColourEndTakesTheSample : Prop :=
  ∀ s : State, DecIn s .cAcc →
    exec .colourEnd s = .next { s with dec := { s.dec with
      colour := BitVec.ofNat 8 (s.dec.acc.toNat / 256), runlen := 0, p := s.dec.p + 1, phase := .runLen } }

/-- R87: the C_SEED step, the end of the stream included; a COLOUR_END here is a seed like any byte. -/
def Obligations.SeedStepFollowsItsRule : Prop :=
  ∀ s : State, DecIn s .cSeed →
    (s.dec.p = s.dec.inLen → decTurn s = .next { s with dec := { s.dec with
        status := .fault, err := .malformedColourSequence, errPos := s.dec.p % 2 ^ 32 } }) ∧
    (s.dec.p ≠ s.dec.inLen → ∀ b, fetchByte s = .ok b →
      decTurn s = .next { s with dec := { s.dec with
        acc := (b &&& 0x03).zeroExtend 32, p := s.dec.p + 1, phase := .cAcc } })

/-- R88 and R89: the C_ACC step, both arms, and the end of the stream. -/
def Obligations.AccumulateStepFollowsItsRules : Prop :=
  ∀ s : State, DecIn s .cAcc →
    (s.dec.p = s.dec.inLen → decTurn s = .next { s with dec := { s.dec with
        status := .fault, err := .malformedColourSequence, errPos := s.dec.p % 2 ^ 32 } }) ∧
    (s.dec.p ≠ s.dec.inLen → ∀ b, fetchByte s = .ok b →
      (b ≠ 0x83 → decTurn s = .next { s with dec := { s.dec with
        acc := (s.dec.acc <<< 6) ||| (b &&& 0x3F).zeroExtend 32, p := s.dec.p + 1 } }) ∧
      (b = 0x83 → decTurn s = .next { s with dec := { s.dec with
        colour := s.dec.acc.extractLsb' 8 8, runlen := 0, p := s.dec.p + 1, phase := .runLen } }))

/-- `RUN n` in RUNLEN adds its value to the run length; `RUN 0` adds nothing (R65, R143, R145). -/
def Obligations.RunAddsItsChunk : Prop :=
  ∀ (n : BitVec 5) (s : State), DecIn s .runLen →
    exec (.run n) s = .next { s with dec := { s.dec with runlen := s.dec.runlen + n.toNat, p := s.dec.p + 1 } }

/-- ADVANCE_Y_PAINT and ADVANCE_Y_SKIP in RUNLEN, within bounds, paint: the cells from `y·W + x` for the run length get
the sample and no other cell changes; the cursor advances, wrapping to the next row exactly at column `W`; the phase is
SCAN and `dec.p` stays; nothing else changes. A run of length 0 paints nothing and never faults (R140, R141, R146, R147,
R148). -/
def Obligations.TerminatorsPaintTheRun : Prop :=
  ∀ (i : Instr) (s : State), i = .advanceYPaint ∨ i = .advanceYSkip → DecIn s .runLen →
    s.dec.runlen = 0 ∨ (s.dec.x + s.dec.runlen ≤ s.cfg.w ∧ s.dec.y < s.cfg.h) →
    ∃ t, exec i s = .next t ∧
      (∀ a, t.grid.read a =
        if s.dec.y * s.cfg.w + s.dec.x ≤ a ∧ a < s.dec.y * s.cfg.w + s.dec.x + s.dec.runlen then some s.dec.colour
        else s.grid.read a) ∧
      t = { s with
        grid := t.grid,
        dec := { s.dec with
          x := if s.dec.x + s.dec.runlen = s.cfg.w then 0 else s.dec.x + s.dec.runlen,
          y := if s.dec.x + s.dec.runlen = s.cfg.w then s.dec.y + 1 else s.dec.y,
          phase := .scan } }

/-- R146: with a run of 1 or more that does not fit the row, or with every row complete, a terminator raises
OutOfBoundsWrite: nothing is painted and the cursor is unchanged. A run of length 0 never faults, even at `dec.y = H`, and
writes nothing. -/
def Obligations.TerminatorsCheckBounds : Prop :=
  ∀ (i : Instr) (s : State), i = .advanceYPaint ∨ i = .advanceYSkip → DecIn s .runLen →
    (1 ≤ s.dec.runlen → s.cfg.w < s.dec.x + s.dec.runlen ∨ s.cfg.h ≤ s.dec.y →
      exec i s = .next { s with dec := { s.dec with
        status := .fault, err := .outOfBoundsWrite, errPos := s.dec.p % 2 ^ 32 } }) ∧
    (s.dec.runlen = 0 → s.dec.x < s.cfg.w →
      exec i s = .next { s with dec := { s.dec with phase := .scan } })

/-- Every opcode but `RUN` and the two advance opcodes raises MalformedRunSequence in RUNLEN, at its own index, with
nothing painted (R94, R145, R173). -/
def Obligations.OtherOpcodesFaultInARunLength : Prop :=
  ∀ (i : Instr) (s : State), DecIn s .runLen → (∀ n, i ≠ .run n) → i ≠ .advanceYPaint → i ≠ .advanceYSkip →
    exec i s = .next { s with dec := { s.dec with
      status := .fault, err := .malformedRunSequence, errPos := s.dec.p % 2 ^ 32 } }

/-! ### Frames -/

/-- Frame of every opcode outside DEC and GRID: no opcode changes a register of ENC, a length register, the samples in SRC
or a byte of a stream, written or not (R53, R183): a stream cannot modify itself or affect ENC. -/
def Obligations.OpcodesLeaveEncAndStreams : Prop :=
  ∀ (i : Instr) (s t : State), exec i s = .next t →
    t.enc = s.enc ∧ t.src = s.src ∧ t.encStrm = s.encStrm ∧ t.decStrm = s.decStrm ∧ t.contents = s.contents ∧
    t.cfg = s.cfg ∧ t.turns = s.turns ∧ t.hostData = s.hostData ∧ t.dec.inLen = s.dec.inLen

/-- Frame of every opcode on DEC's registers. The cursor changes only at a terminator in RUNLEN; the accumulator only in
C_SEED and C_ACC; the sample only at COLOUR_END in C_ACC; the run length only there and at `RUN` in RUNLEN; status and
error registers only in RUNLEN, where a fault is raised (R21, R23, R24, R25, R27). -/
def Obligations.OpcodesChangeOnlyTheirRegisters : Prop :=
  ∀ (i : Instr) (s t : State), exec i s = .next t →
    (¬(s.dec.phase = .runLen ∧ (i = .advanceYPaint ∨ i = .advanceYSkip)) → t.dec.x = s.dec.x ∧ t.dec.y = s.dec.y) ∧
    (¬(s.dec.phase = .cSeed ∨ (s.dec.phase = .cAcc ∧ i ≠ .colourEnd)) → t.dec.acc = s.dec.acc) ∧
    (¬(s.dec.phase = .cAcc ∧ i = .colourEnd) → t.dec.colour = s.dec.colour) ∧
    (¬(s.dec.phase = .cAcc ∧ i = .colourEnd) → ¬(s.dec.phase = .runLen ∧ ∃ n, i = .run n) →
      t.dec.runlen = s.dec.runlen) ∧
    (s.dec.phase ≠ .runLen ∨ (∃ n, i = .run n) → t.dec.toUnitCtl = s.dec.toUnitCtl)

/-- Frame of every opcode on GRID. Outside the cells of the run at the cursor every byte reads as before; and where the
opcode is not a terminator in RUNLEN, or the bounds check fails, every byte does (R43, R147). -/
def Obligations.OpcodesPaintOnlyTheRun : Prop :=
  ∀ (i : Instr) (s t : State), exec i s = .next t →
    (∀ base, s.dec.cursorIndex s.cfg = base → ∀ a, a < base ∨ base + s.dec.runlen ≤ a →
      t.grid.read a = s.grid.read a) ∧
    (¬(s.dec.phase = .runLen ∧ (i = .advanceYPaint ∨ i = .advanceYSkip)) ∨ s.dec.outOfBounds s.cfg = true →
      ∀ a, t.grid.read a = s.grid.read a)

/-- A turn of DEC changes DEC and GRID only; a turn of ENC changes ENC and ENC's STRM only. A fault in one unit has no
effect on the other (R10, R178). -/
def Obligations.UnitsDoNotInterfere : Prop :=
  ∀ s t : State,
    (decTurn s = .next t → t = { s with dec := t.dec, grid := t.grid }) ∧
    (encTurn s = .next t → t = { s with enc := t.enc, encStrm := t.encStrm })

/-! ### Faults -/

/-- R174: raising a fault writes status, code and position, and every other register and every memory stays. -/
def Obligations.RaisingFreezesTheRest : Prop :=
  ∀ (f : ErrCode) (n : Nat) (s : State),
    raiseDec f n s = .next { s with dec := { s.dec with status := .fault, err := f, errPos := n % 2 ^ 32 } } ∧
    raiseEnc f n s = .next { s with enc := { s.enc with status := .fault, err := f, errPos := n % 2 ^ 32 } }

/-- A fault is sticky: no step but a START of the unit or a hardware reset clears FAULT, the code or the position (R179,
R180). Which turns of the host count as a START is the model's choice: a write with bit 0 set (log 14), by name or by a
bus address that reaches the start bit, the first register the map lists there (log 23). -/
def Obligations.FaultsAreSticky : Prop :=
  ∀ s t : State, step s = .next t →
    (s.dec.status = .fault → (∀ u, s.turns.head? = some u → restartsDec s.cfg u = false) →
      t.dec.toUnitCtl = s.dec.toUnitCtl) ∧
    (s.enc.status = .fault → (∀ u, s.turns.head? = some u → restartsEnc s.cfg u = false) →
      t.enc.toUnitCtl = s.enc.toUnitCtl)

/-- UnsupportedExtension is never raised by the hardware (R171, R177). -/
def Obligations.UnsupportedExtensionIsNeverRaised : Prop :=
  ∀ s t : State, step s = .next t →
    (s.enc.err ≠ .unsupportedExtension → t.enc.err ≠ .unsupportedExtension) ∧
    (s.dec.err ≠ .unsupportedExtension → t.dec.err ≠ .unsupportedExtension)

/-! ### The packer, the chunker, and their inverses -/

/-- The token replicates the sample over a fixed alpha byte, and `pack` cuts it into one 2-bit group and four 6-bit
groups, each under 0xC0, then 0xFF and COLOUR_END (R80, R81, R82). -/
def Obligations.PackLaysOutTheGroups : Prop :=
  ∀ s : Byte,
    ((token s).extractLsb' 24 8 = s ∧ (token s).extractLsb' 16 8 = s ∧ (token s).extractLsb' 8 8 = s ∧
      (token s).extractLsb' 0 8 = 0xFF) ∧
    pack s = [0xC0 ||| (s >>> 6), 0xC0 ||| (s &&& 0x3F), 0xC0 ||| (s >>> 2),
      0xC0 ||| (((s &&& 0x03) <<< 4) ||| (s >>> 4)), 0xC0 ||| (((s &&& 0x0F) <<< 2) ||| 0x03), 0xFF, 0x83]

/-- After a trigger, the seven bytes of `pack(v)` bring DEC to RUNLEN with the sample `v`, in seven steps, with nothing
painted (R82, R86 to R89, R92). With no turn pending each step is DEC's, even with ENC BUSY: the model's own DEC-first
scheduler (log 5). -/
def Obligations.UnpackingAPackedSampleReturnsIt : Prop :=
  ∀ (s : State) (v : Byte), s.turns = [] → DecIn s .cSkip → s.dec.p + 7 ≤ s.dec.inLen →
    s.dec.inLen ≤ s.cfg.streamCap → SpaceHolds s .decStrm s.dec.p (pack v) →
    ∃ t, runSteps 7 s = .next t ∧ t.dec.colour = v ∧ DecIn t .runLen ∧ t.dec.runlen = 0 ∧ t.dec.p = s.dec.p + 7 ∧
      t.grid = s.grid ∧ t.dec.x = s.dec.x ∧ t.dec.y = s.dec.y

/-- R105: `chunks(L)` is 31 as often as it goes into `L`, then the remainder if it is not zero; its length is
`nchunks(L)`, its bytes sum to `L`, and every byte is 0x01 to 0x1F. -/
def Obligations.ChunksSumToTheLength : Prop :=
  ∀ l : Nat,
    chunks l = List.replicate (l / 31) 0x1F ++ (if l % 31 ≠ 0 then [BitVec.ofNat 8 (l % 31)] else []) ∧
    (chunks l).length = l / 31 + (if l % 31 ≠ 0 then 1 else 0) ∧
    ((chunks l).map BitVec.toNat).sum = l ∧
    ∀ b ∈ chunks l, 1 ≤ b.toNat ∧ b.toNat ≤ 31

/-- The bytes of `chunks(L)` read back as the run length `L`, one step a byte (R68, R143, R145). With no turn pending each
step is DEC's, the model's own scheduler (log 5). -/
def Obligations.ChunksReadBackAsTheLength : Prop :=
  ∀ (s : State) (l : Nat), s.turns = [] → DecIn s .runLen → s.dec.runlen = 0 →
    s.dec.p + (chunks l).length ≤ s.dec.inLen → s.dec.inLen ≤ s.cfg.streamCap →
    SpaceHolds s .decStrm s.dec.p (chunks l) →
    runSteps (chunks l).length s = .next { s with dec := { s.dec with
      p := s.dec.p + (chunks l).length, runlen := l } }

/-! ### Starting a pass -/

/-- R101: START_ENC while BUSY does nothing; with a wrong sample count it raises DimensionMismatch before any byte is
emitted; otherwise TOOL_LINE is emitted and ENC is BUSY at the first sample. What the rest of STRM holds is then
unspecified, so nothing is said of it and of the number of its contents (log 8). The hypothesis on a shared STRM is the
model's (log 19): the other unit does not own the memory. -/
def Obligations.StartEncBeginsAPass : Prop :=
  ∀ s : State,
    (s.enc.status = .busy → startEnc s = .next s) ∧
    (s.enc.status ≠ .busy → s.enc.srcLen ≠ s.cfg.nsamp →
      startEnc s = .next { s with enc := { s.enc with
        pos := 0, x := 0, y := 0, outLen := 0,
        status := .fault, err := .dimensionMismatch, errPos := s.enc.srcLen % 2 ^ 32 } }) ∧
    (s.enc.status ≠ .busy → s.enc.srcLen = s.cfg.nsamp → s.cfg.sharedStrm = false ∨ s.dec.status ≠ .busy →
      1 ≤ s.cfg.streamCap →
      ∃ t, startEnc s = .next t ∧ t.encStrm.read 0 = some 0x81 ∧
        t = { s with
          encStrm := t.encStrm, contents := { s.contents with encStrm := t.contents.encStrm },
          enc := { s.enc with
            status := .busy, err := .none, errPos := 0, pos := 0, x := 0, y := 0, outLen := 1 } })

/-- R130: START_DEC while BUSY does nothing; otherwise every register of DEC but the stream length is set, every cell of
GRID is 0, and DEC is BUSY in SCAN at the first byte. The hypothesis on a shared STRM is the model's (log 19). -/
def Obligations.StartDecBeginsAPass : Prop :=
  ∀ s : State,
    (s.dec.status = .busy → startDec s = .next s) ∧
    (s.dec.status ≠ .busy → s.cfg.sharedStrm = false ∨ s.enc.status ≠ .busy →
      ∃ t, startDec s = .next t ∧ (∀ i, i < s.cfg.nsamp → t.grid.read i = some 0) ∧
        t = { s with
          grid := t.grid,
          dec := { s.dec with
            status := .busy, err := .none, errPos := 0, p := 0, x := 0, y := 0, acc := 0, colour := 0, runlen := 0,
            phase := .scan } })

/-- The host writing 1 to a start bit issues the START, writing 0 does nothing, and a START while BUSY is ignored (R28,
R204). That the bit is bit 0 of the value is the model's reading (log 14). -/
def Obligations.StartBitsIssueTheStart : Prop :=
  ∀ (s : State) (v : Word),
    hostTurn (.writeReg .encCtrlStart v) s = (if v.toNat % 2 = 1 then startEnc s else .next s) ∧
    hostTurn (.writeReg .decCtrlStart v) s = (if v.toNat % 2 = 1 then startDec s else .next s) ∧
    (s.enc.status = .busy → hostTurn (.writeReg .encCtrlStart v) s = .next s) ∧
    (s.dec.status = .busy → hostTurn (.writeReg .decCtrlStart v) s = .next s)

/-! ### ENC -/

/-- R103: the run scan finds the sample at the pointer and the longest run of it that stays in the row. It completes
whatever SRC holds, written or not, and so reads no index at or above NSAMP. -/
def Obligations.RunScanFindsTheMaximalRun : Prop :=
  ∀ s : State, s.enc.x < s.cfg.w → s.enc.y < s.cfg.h → s.enc.pos = s.enc.y * s.cfg.w + s.enc.x →
    ∃ r, findRun s = .ok r ∧ 1 ≤ r.len ∧ r.len ≤ s.cfg.w - s.enc.x ∧
      (∀ j, j < r.len → s.byteAt .src (s.enc.pos + j) = r.sample) ∧
      (s.enc.x + r.len = s.cfg.w ∨ s.byteAt .src (s.enc.pos + r.len) ≠ r.sample)

/-- The iteration (R102 to R109): with the run found, ENC appends the colour sequence, the chunks, ADVANCE_Y_PAINT and, at
the row's right edge, the wrap sequence, and moves its cursor and its pointer; at the last sample it is DONE. -/
def Obligations.IterationEmitsOneRun : Prop :=
  ∀ (s : State) (r : Run), Inv s → s.enc.status = .busy → findRun s = .ok r →
    ∃ t, encTurn s = .next t ∧
      (let bs := pack r.sample ++ chunks r.len ++ [0x40] ++
          (if s.enc.x + r.len = s.cfg.w then [0x80, 0x84, 0x41, 0x81] else [])
       HoldsAt t.encStrm s.enc.outLen bs ∧ t.enc.outLen = s.enc.outLen + bs.length) ∧
      t.enc.x = (if s.enc.x + r.len = s.cfg.w then 0 else s.enc.x + r.len) ∧
      t.enc.y = (if s.enc.x + r.len = s.cfg.w then s.enc.y + 1 else s.enc.y) ∧
      t.enc.pos = s.enc.pos + r.len ∧
      t.enc.status = (if s.enc.pos + r.len = s.cfg.nsamp then .done else .busy) ∧
      t.enc.srcLen = s.enc.srcLen ∧ t.enc.err = s.enc.err ∧ t.enc.errPos = s.enc.errPos

/-- ENC's stream is append-only: a turn of ENC leaves every byte below the old `enc.out_len` and at or above the new one
as it was (R16, R42). -/
def Obligations.EncoderOnlyAppends : Prop :=
  ∀ s t : State, encTurn s = .next t →
    s.enc.outLen ≤ t.enc.outLen ∧
    ∀ a, a < s.enc.outLen ∨ t.enc.outLen ≤ a → t.encStrm.read a = s.encStrm.read a

/-- From a started pass over any image, ENC is DONE after at most NSAMP iterations, at the end of SRC with the cursor
after the last row, and its stream is the well-formed stream of that image (R100, R109, R110, R112, R114). With no turn
pending and DEC not BUSY each step is ENC's, the model's own scheduler (log 5). -/
def Obligations.EncoderProducesAWellFormedStream : Prop :=
  ∀ (s : State) (img : List Byte), s.cfg.wf → s.turns = [] → s.dec.status ≠ .busy → EncStarted s → SrcHolds s img →
    ∃ k, k ≤ s.cfg.nsamp ∧ ∃ t rows, runSteps k s = .next t ∧ t.enc.status = .done ∧
      t.enc.x = 0 ∧ t.enc.y = s.cfg.h ∧ t.enc.pos = s.cfg.nsamp ∧
      rowsWf s.cfg rows = true ∧ sketchSamples rows = img ∧
      t.enc.outLen = (sketchBytes rows).length ∧ HoldsAt t.encStrm 0 (sketchBytes rows)

/-! ### DEC, over a whole pass -/

/-- `dec.p` moves by one or stays; where it stays and the pass goes on, the step was RUNLEN at a terminator and the next
one is a SCAN step (R20, R131). -/
def Obligations.ScanPositionMovesByOneOrStays : Prop :=
  ∀ s t : State, decTurn s = .next t →
    (t.dec.p = s.dec.p ∨ t.dec.p = s.dec.p + 1) ∧
    (t.dec.p = s.dec.p → t.dec.status = .busy → s.dec.phase = .runLen ∧ t.dec.phase = .scan ∧
      (fetchByte s = .ok 0x40 ∨ fetchByte s = .ok 0x41))

/-- Every decode terminates: from a started pass over any stream of `N` bytes, written or not, DEC is DONE or in FAULT
after at most `2N + 1` steps (R131, R205). With no turn pending each step is DEC's, even with ENC BUSY: the model's own DEC-first
scheduler (log 5). -/
def Obligations.EveryDecodeTerminates : Prop :=
  ∀ s : State, s.turns = [] → DecIn s .scan → s.dec.p = 0 → s.dec.inLen ≤ s.cfg.streamCap →
    ∃ k, k ≤ 2 * s.dec.inLen + 1 ∧ ∃ t, runSteps k s = .next t ∧ (t.dec.status = .done ∨ t.dec.status = .fault)

/-- While a pass runs, cells before the cursor keep what was painted and cells from the cursor on stay 0, so a pass paints
each cell at most once, in row-major order (R150). -/
def Obligations.PaintingIsRowMajor : Prop :=
  ∀ s t : State, Inv s → s.dec.status = .busy → UnpaintedZero s → decTurn s = .next t →
    UnpaintedZero t ∧ s.dec.cursorIndex s.cfg ≤ t.dec.cursorIndex t.cfg ∧
    ∀ i, i < s.dec.cursorIndex s.cfg → t.grid.read i = s.grid.read i

/-- From a started pass over a well-formed stream, DEC is DONE, complete, with the image of the stream in GRID (R112,
R135, R150). With no turn pending each step is DEC's, even with ENC BUSY: the model's own DEC-first scheduler (log 5). -/
def Obligations.DecoderPaintsAWellFormedStream : Prop :=
  ∀ (s : State) (rows : List (List Run)), s.cfg.wf → s.turns = [] → DecStarted s → rowsWf s.cfg rows = true →
    s.dec.inLen = (sketchBytes rows).length → s.dec.inLen ≤ s.cfg.streamCap →
    SpaceHolds s .decStrm 0 (sketchBytes rows) →
    ∃ k t, runSteps k s = .next t ∧ t.dec.status = .done ∧ t.dec.x = 0 ∧ t.dec.y = s.cfg.h ∧
      t.dec.p = s.dec.inLen ∧ (sketchSamples rows).length = s.cfg.nsamp ∧ HoldsAt t.grid 0 (sketchSamples rows)

/-- R115: for every image of NSAMP samples, START_ENC and its pass end DONE, and decoding the stream that stands in STRM
ends DONE with GRID equal to SRC, the cursor at (0, H) and `dec.p = enc.out_len`. The stream may be decoded in any later
state that holds it, in this block or another of the same configuration. With no turn pending the unit that is BUSY has
each step (log 5). -/
def Obligations.DecodingAnEncodingReturnsTheImage : Prop :=
  ∀ (s : State) (img : List Byte), s.cfg.wf → s.turns = [] → s.enc.status ≠ .busy → s.dec.status ≠ .busy →
    s.enc.srcLen = s.cfg.nsamp → SrcHolds s img →
    ∃ s1 k t, startEnc s = .next s1 ∧ runSteps k s1 = .next t ∧ t.enc.status = .done ∧
      ∀ u : State, u.cfg = s.cfg → u.turns = [] → u.enc.status ≠ .busy → u.dec.status ≠ .busy →
        u.dec.inLen = t.enc.outLen →
        (∀ i, i < t.enc.outLen → u.byteAt .decStrm i = t.byteAt .encStrm i) →
        ∃ u1 j v, startDec u = .next u1 ∧ runSteps j u1 = .next v ∧ v.dec.status = .done ∧
          v.dec.x = 0 ∧ v.dec.y = s.cfg.h ∧ v.dec.p = t.enc.outLen ∧ HoldsAt v.grid 0 img

/-! ### The invariant and the whole machine -/

/-- Every step keeps the invariant: from every state that meets it, whatever the turns and the host's accesses. -/
def Obligations.StepKeepsTheInvariant : Prop := ∀ s t : State, Inv s → step s = .next t → Inv t

/-- No step changes the configuration (R5, R32). -/
def Obligations.StepKeepsTheConfiguration : Prop := ∀ s t : State, step s = .next t → t.cfg = s.cfg

/-- A unit's turn is never refused, in any state; and from a state that meets the invariant it never leaves its memory
spaces, whatever the memories hold, written or not: no read and no append stops it, so it answers a next state, and in
that state every memory, GRID among them, is canonical and lists no index outside its space (R43, R56, R117). -/
def Obligations.UnitsStayInTheirSpaces : Prop :=
  ∀ s : State,
    (∀ r, encTurn s ≠ .refused r) ∧ (∀ r, decTurn s ≠ .refused r) ∧
    (Inv s → (∃ t, encTurn s = .next t ∧ MemOk t) ∧ ∃ t, decTurn s = .next t ∧ MemOk t)

/-- A BUSY unit always has its step: from a state that meets the invariant, whatever the memories hold, written or not, a
turn of a BUSY unit answers a next state, and the unit has moved (R9, R131, R205). -/
def Obligations.BusyUnitsAlwaysStep : Prop :=
  ∀ s : State, Inv s →
    (s.enc.status = .busy → ∃ t, encTurn s = .next t ∧ s.enc.pos < t.enc.pos) ∧
    (s.dec.status = .busy → ∃ t, decTurn s = .next t ∧ t ≠ s)

/-- Any interleaving of ENC's turns and DEC's turns gives the state that running ENC's first and DEC's after gives, where
the units have disjoint memories (R186). -/
def Obligations.InterleavingIsImmaterial : Prop :=
  ∀ (s t : State) (l : List Turn), s.cfg.sharedStrm = false → (∀ u ∈ l, u = .enc ∨ u = .dec) →
    runSteps l.length { s with turns := l } = .next t →
    runSteps l.length { s with
      turns := List.replicate (l.count .enc) .enc ++ List.replicate (l.count .dec) .dec } = .next t

/-! ### The host -/

/-- The length registers: a write while the unit is BUSY is ignored; otherwise `ENC_SRC_LEN` takes the value, and
`DEC_IN_LEN` takes it if it is at most STREAM_CAP. That a write of a larger value leaves the register as it was is the
model's reading of "cannot be written" (R28; log 13). -/
def Obligations.LengthRegistersTakeTheHostsValue : Prop :=
  ∀ (s : State) (v : Word),
    hostTurn (.writeReg .encSrcLen v) s =
      .next (if s.enc.status = .busy then s else { s with enc := { s.enc with srcLen := v.toNat } }) ∧
    hostTurn (.writeReg .decInLen v) s =
      .next (if s.dec.status = .busy ∨ s.cfg.streamCap < v.toNat then s
        else { s with dec := { s.dec with inLen := v.toNat } })

/-- While a unit is BUSY the host has no move on a memory the unit owns, and no START of the other unit on one shared STRM
(R55, R210, R212; that such a START is refused is the model's choice, log 19). Where the two STRM are one memory, a unit
that owns it owns it under both names (log 3). -/
def Obligations.OwnedMemoriesAreRefused : Prop :=
  ∀ (s : State) (a : Nat) (b : Byte),
    (s.enc.status = .busy → ∀ sp, sp = .src ∨ sp = .encStrm ∨ (sp = .decStrm ∧ s.cfg.sharedStrm = true) →
      hostTurn (.writeMem sp a b) s = .refused (.ownedMemory sp) ∧
      hostTurn (.readMem sp a) s = .refused (.ownedMemory sp)) ∧
    (s.dec.status = .busy → ∀ sp, sp = .decStrm ∨ sp = .grid ∨ (sp = .encStrm ∧ s.cfg.sharedStrm = true) →
      hostTurn (.writeMem sp a b) s = .refused (.ownedMemory sp) ∧
      hostTurn (.readMem sp a) s = .refused (.ownedMemory sp)) ∧
    (s.cfg.sharedStrm = true → s.enc.status = .busy → s.dec.status ≠ .busy →
      startDec s = .refused (.ownedMemory .decStrm)) ∧
    (s.cfg.sharedStrm = true → s.dec.status = .busy → s.enc.status ≠ .busy → s.enc.srcLen = s.cfg.nsamp →
      startEnc s = .refused (.ownedMemory .encStrm))

/-- A read of a byte of a memory no BUSY unit owns gives the byte that stands there, written or not (log 7). A byte the
host writes there, the other unit BUSY or not, is the byte it reads back; every other byte of that memory and every byte
of the others is as it was, written or not, and registers do not change (R46, R50, R55). That the read gives what a unit
wrote even before the host has read its terminal status is the model's choice (log 24). Which unit owns which memory is
said here in the words of R55: SRC and ENC's STRM are ENC's, DEC's STRM and GRID are DEC's, and one shared STRM is
either's (log 3). -/
def Obligations.HostReadsWhatItWrote : Prop :=
  ∀ (s : State) (sp : Space) (a : Nat) (b : Byte),
    (sp = .src ∨ sp = .encStrm ∨ (sp = .decStrm ∧ s.cfg.sharedStrm = true) → s.enc.status ≠ .busy) →
    (sp = .decStrm ∨ sp = .grid ∨ (sp = .encStrm ∧ s.cfg.sharedStrm = true) → s.dec.status ≠ .busy) →
    a < sp.size s.cfg →
    (∃ v : Word, v.toNat = (s.byteAt sp a).toNat ∧ hostTurn (.readMem sp a) s = .next { s with hostData := v }) ∧
    ∃ t, hostTurn (.writeMem sp a b) s = .next t ∧ t.enc = s.enc ∧ t.dec = s.dec ∧ t.contents = s.contents ∧
      (∀ c, c ≠ a → (t.memOf sp).read c = (s.memOf sp).read c) ∧
      (∀ sq, sq ≠ sp →
        ¬(s.cfg.sharedStrm = true ∧ (sp = .encStrm ∨ sp = .decStrm) ∧ (sq = .encStrm ∨ sq = .decStrm)) →
        ∀ c, (t.memOf sq).read c = (s.memOf sq).read c) ∧
      ∃ u, hostTurn (.readMem sp a) t = .next u ∧ u.hostData.toNat = b.toNat

/-- What a host read answers for every register of R28. A status is read at any time, by its code, and a start bit reads
as 0 at any time; any other register of a unit that is not BUSY gives its value, by its code where it has one; a read of
any other register of a BUSY unit is refused (R27, R171, R210, D22; log 16). That a register reads its value even before
the host has read a terminal status is the model's choice (log 24). The bounds are those of the 32-bit value,
which the invariant keeps (log 10). -/
def Obligations.HostReadsRegisters : Prop :=
  ∀ s : State,
    let statusCode : Status → Nat := fun x => match x with | .idle => 0 | .busy => 1 | .done => 2 | .fault => 3
    let errCode : ErrCode → Nat := fun x => match x with
      | .none => 0 | .malformedColourSequence => 1 | .malformedRunSequence => 2 | .outOfBoundsWrite => 3
      | .unsupportedExtension => 4 | .dimensionMismatch => 5
    let phaseCode : Phase → Nat := fun x => match x with
      | .idle => 0 | .scan => 1 | .cSkip => 2 | .cSeed => 3 | .cAcc => 4 | .runLen => 5
    (HostReads s .encStatus (statusCode s.enc.status) ∧ HostReads s .decStatus (statusCode s.dec.status) ∧
      HostReads s .encCtrlStart 0 ∧ HostReads s .decCtrlStart 0) ∧
    (s.enc.status ≠ .busy →
      HostReads s .encErr (errCode s.enc.err) ∧
      (s.enc.errPos < 2 ^ 32 → HostReads s .encErrPos s.enc.errPos) ∧
      (s.enc.srcLen < 2 ^ 32 → HostReads s .encSrcLen s.enc.srcLen) ∧
      (s.enc.outLen < 2 ^ 32 → HostReads s .encOutLen s.enc.outLen) ∧
      (s.enc.x < 2 ^ 32 → HostReads s .encX s.enc.x) ∧
      (s.enc.y < 2 ^ 32 → HostReads s .encY s.enc.y) ∧
      (s.enc.pos < 2 ^ 32 → HostReads s .encPos s.enc.pos)) ∧
    (s.dec.status ≠ .busy →
      HostReads s .decErr (errCode s.dec.err) ∧ HostReads s .decPhase (phaseCode s.dec.phase) ∧
      (s.dec.errPos < 2 ^ 32 → HostReads s .decErrPos s.dec.errPos) ∧
      (s.dec.inLen < 2 ^ 32 → HostReads s .decInLen s.dec.inLen) ∧
      (s.dec.p < 2 ^ 32 → HostReads s .decP s.dec.p) ∧
      (s.dec.x < 2 ^ 32 → HostReads s .decX s.dec.x) ∧
      (s.dec.y < 2 ^ 32 → HostReads s .decY s.dec.y)) ∧
    (s.enc.status = .busy → ∀ r,
      r ∈ [HostReg.encErr, .encErrPos, .encSrcLen, .encOutLen, .encX, .encY, .encPos] →
        hostTurn (.readReg r) s = .refused (.busyUnitRegister r)) ∧
    (s.dec.status = .busy → ∀ r,
      r ∈ [HostReg.decErr, .decErrPos, .decInLen, .decP, .decX, .decY, .decPhase] →
        hostTurn (.readReg r) s = .refused (.busyUnitRegister r))

/-! ### Streams -/

/-- In a well-formed stream the implied tool is LINE at every ADVANCE_Y_PAINT and NONE at every ADVANCE_Y_SKIP (R113). -/
def Obligations.ImpliedToolOfWellFormedStreams : Prop :=
  ∀ (c : Config) (rows : List (List Run)) (i : Nat), c.wf → rowsWf c rows = true →
    ((sketchBytes rows)[i]? = some 0x40 → impliedTool ((sketchBytes rows).take i) = .line) ∧
    ((sketchBytes rows)[i]? = some 0x41 → impliedTool ((sketchBytes rows).take i) = .none)

/-- The shape of a well-formed stream: it starts with 0x81, ends with 80 84 41 81, has `H + 1` bytes 0x81, `H` bytes each
of 0x80, 0x84 and 0x41, one 0x40 and one 0x83 a run, no byte 0x00 and no reserved byte (R112, R116). -/
def Obligations.ShapeOfWellFormedStreams : Prop :=
  ∀ (c : Config) (rows : List (List Run)), c.wf → rowsWf c rows = true →
    let bs := sketchBytes rows
    bs.head? = some 0x81 ∧ [0x80, 0x84, 0x41, 0x81] <:+ bs ∧
    bs.count 0x81 = c.h + 1 ∧ bs.count 0x80 = c.h ∧ bs.count 0x84 = c.h ∧ bs.count 0x41 = c.h ∧
    bs.count 0x40 = rows.flatten.length ∧ bs.count 0x83 = rows.flatten.length ∧ bs.length ≤ c.outMax ∧
    ∀ b ∈ bs, b ≠ 0x00 ∧ classOf b ≠ .reserved

/-! ### The register map -/

/-- An access by bus address is the access of the one register REG_MAP lists there, and is refused where the map lists
none (D6; the refusal is the model's choice, log 4). Of an address listed with two registers nothing is said here
(log 23). -/
def Obligations.BusAccessesReachTheMappedRegister : Prop :=
  ∀ (s : State) (a : Nat) (v : Word),
    (∀ r, (a, r) ∈ s.cfg.regMap → (∀ q, (a, q) ∈ s.cfg.regMap → q = r) →
      hostTurn (.busWrite a v) s = hostTurn (.writeReg r v) s ∧ hostTurn (.busRead a) s = hostTurn (.readReg r) s) ∧
    ((∀ r, (a, r) ∉ s.cfg.regMap) →
      hostTurn (.busWrite a v) s = .refused (.unmappedBusAddress a) ∧
      hostTurn (.busRead a) s = .refused (.unmappedBusAddress a))
end

