-- ==== Sys2Proof/Laws/State.lean ====
section
/-! SUPPORT. One lemma for each field of State under each update the machine makes, true by definition, so that no later
proof unfolds a record update. -/

namespace Sys2Proof.Machine

/-! ### Status, error code, error position -/

@[simp] theorem UnitCtl.raise_status (u : UnitCtl) (f : ErrCode) (n : Nat) : (u.raise f n).status = .fault := rfl
@[simp] theorem UnitCtl.raise_err (u : UnitCtl) (f : ErrCode) (n : Nat) : (u.raise f n).err = f := rfl
@[simp] theorem UnitCtl.raise_errPos (u : UnitCtl) (f : ErrCode) (n : Nat) : (u.raise f n).errPos = n % 2 ^ 32 := rfl
@[simp] theorem UnitCtl.clear_status (u : UnitCtl) : u.clear.status = u.status := rfl
@[simp] theorem UnitCtl.clear_err (u : UnitCtl) : u.clear.err = .none := rfl
@[simp] theorem UnitCtl.clear_errPos (u : UnitCtl) : u.clear.errPos = 0 := rfl
@[simp] theorem UnitCtl.begin_status (u : UnitCtl) : u.begin.status = .busy := rfl
@[simp] theorem UnitCtl.begin_err (u : UnitCtl) : u.begin.err = u.err := rfl
@[simp] theorem UnitCtl.begin_errPos (u : UnitCtl) : u.begin.errPos = u.errPos := rfl
@[simp] theorem UnitCtl.finish_status (u : UnitCtl) : u.finish.status = .done := rfl
@[simp] theorem UnitCtl.finish_err (u : UnitCtl) : u.finish.err = u.err := rfl
@[simp] theorem UnitCtl.finish_errPos (u : UnitCtl) : u.finish.errPos = u.errPos := rfl

/-! ### DEC's registers -/

@[simp] theorem Dec.passOver_status (d : Dec) : (d.passOver).status = d.status := rfl
@[simp] theorem Dec.passOver_err (d : Dec) : (d.passOver).err = d.err := rfl
@[simp] theorem Dec.passOver_errPos (d : Dec) : (d.passOver).errPos = d.errPos := rfl
@[simp] theorem Dec.passOver_inLen (d : Dec) : (d.passOver).inLen = d.inLen := rfl
@[simp] theorem Dec.passOver_p (d : Dec) : (d.passOver).p = d.p + 1 := rfl
@[simp] theorem Dec.passOver_phase (d : Dec) : (d.passOver).phase = d.phase := rfl
@[simp] theorem Dec.passOver_x (d : Dec) : (d.passOver).x = d.x := rfl
@[simp] theorem Dec.passOver_y (d : Dec) : (d.passOver).y = d.y := rfl
@[simp] theorem Dec.passOver_acc (d : Dec) : (d.passOver).acc = d.acc := rfl
@[simp] theorem Dec.passOver_colour (d : Dec) : (d.passOver).colour = d.colour := rfl
@[simp] theorem Dec.passOver_runlen (d : Dec) : (d.passOver).runlen = d.runlen := rfl

@[simp] theorem Dec.trigger_status (d : Dec) : (d.trigger).status = d.status := rfl
@[simp] theorem Dec.trigger_err (d : Dec) : (d.trigger).err = d.err := rfl
@[simp] theorem Dec.trigger_errPos (d : Dec) : (d.trigger).errPos = d.errPos := rfl
@[simp] theorem Dec.trigger_inLen (d : Dec) : (d.trigger).inLen = d.inLen := rfl
@[simp] theorem Dec.trigger_p (d : Dec) : (d.trigger).p = d.p + 1 := rfl
@[simp] theorem Dec.trigger_phase (d : Dec) : (d.trigger).phase = .cSkip := rfl
@[simp] theorem Dec.trigger_x (d : Dec) : (d.trigger).x = d.x := rfl
@[simp] theorem Dec.trigger_y (d : Dec) : (d.trigger).y = d.y := rfl
@[simp] theorem Dec.trigger_acc (d : Dec) : (d.trigger).acc = d.acc := rfl
@[simp] theorem Dec.trigger_colour (d : Dec) : (d.trigger).colour = d.colour := rfl
@[simp] theorem Dec.trigger_runlen (d : Dec) : (d.trigger).runlen = d.runlen := rfl

@[simp] theorem Dec.skip_status (d : Dec) : (d.skip).status = d.status := rfl
@[simp] theorem Dec.skip_err (d : Dec) : (d.skip).err = d.err := rfl
@[simp] theorem Dec.skip_errPos (d : Dec) : (d.skip).errPos = d.errPos := rfl
@[simp] theorem Dec.skip_inLen (d : Dec) : (d.skip).inLen = d.inLen := rfl
@[simp] theorem Dec.skip_p (d : Dec) : (d.skip).p = d.p + 1 := rfl
@[simp] theorem Dec.skip_phase (d : Dec) : (d.skip).phase = .cSeed := rfl
@[simp] theorem Dec.skip_x (d : Dec) : (d.skip).x = d.x := rfl
@[simp] theorem Dec.skip_y (d : Dec) : (d.skip).y = d.y := rfl
@[simp] theorem Dec.skip_acc (d : Dec) : (d.skip).acc = d.acc := rfl
@[simp] theorem Dec.skip_colour (d : Dec) : (d.skip).colour = d.colour := rfl
@[simp] theorem Dec.skip_runlen (d : Dec) : (d.skip).runlen = d.runlen := rfl

@[simp] theorem Dec.seed_status (d : Dec) (b : Byte) : (d.seed b).status = d.status := rfl
@[simp] theorem Dec.seed_err (d : Dec) (b : Byte) : (d.seed b).err = d.err := rfl
@[simp] theorem Dec.seed_errPos (d : Dec) (b : Byte) : (d.seed b).errPos = d.errPos := rfl
@[simp] theorem Dec.seed_inLen (d : Dec) (b : Byte) : (d.seed b).inLen = d.inLen := rfl
@[simp] theorem Dec.seed_p (d : Dec) (b : Byte) : (d.seed b).p = d.p + 1 := rfl
@[simp] theorem Dec.seed_phase (d : Dec) (b : Byte) : (d.seed b).phase = .cAcc := rfl
@[simp] theorem Dec.seed_x (d : Dec) (b : Byte) : (d.seed b).x = d.x := rfl
@[simp] theorem Dec.seed_y (d : Dec) (b : Byte) : (d.seed b).y = d.y := rfl
@[simp] theorem Dec.seed_acc (d : Dec) (b : Byte) : (d.seed b).acc = seedOf b := rfl
@[simp] theorem Dec.seed_colour (d : Dec) (b : Byte) : (d.seed b).colour = d.colour := rfl
@[simp] theorem Dec.seed_runlen (d : Dec) (b : Byte) : (d.seed b).runlen = d.runlen := rfl

@[simp] theorem Dec.accumulate_status (d : Dec) (b : Byte) : (d.accumulate b).status = d.status := rfl
@[simp] theorem Dec.accumulate_err (d : Dec) (b : Byte) : (d.accumulate b).err = d.err := rfl
@[simp] theorem Dec.accumulate_errPos (d : Dec) (b : Byte) : (d.accumulate b).errPos = d.errPos := rfl
@[simp] theorem Dec.accumulate_inLen (d : Dec) (b : Byte) : (d.accumulate b).inLen = d.inLen := rfl
@[simp] theorem Dec.accumulate_p (d : Dec) (b : Byte) : (d.accumulate b).p = d.p + 1 := rfl
@[simp] theorem Dec.accumulate_phase (d : Dec) (b : Byte) : (d.accumulate b).phase = d.phase := rfl
@[simp] theorem Dec.accumulate_x (d : Dec) (b : Byte) : (d.accumulate b).x = d.x := rfl
@[simp] theorem Dec.accumulate_y (d : Dec) (b : Byte) : (d.accumulate b).y = d.y := rfl
@[simp] theorem Dec.accumulate_acc (d : Dec) (b : Byte) : (d.accumulate b).acc = Machine.accumulate d.acc b := rfl
@[simp] theorem Dec.accumulate_colour (d : Dec) (b : Byte) : (d.accumulate b).colour = d.colour := rfl
@[simp] theorem Dec.accumulate_runlen (d : Dec) (b : Byte) : (d.accumulate b).runlen = d.runlen := rfl

@[simp] theorem Dec.endColour_status (d : Dec) : (d.endColour).status = d.status := rfl
@[simp] theorem Dec.endColour_err (d : Dec) : (d.endColour).err = d.err := rfl
@[simp] theorem Dec.endColour_errPos (d : Dec) : (d.endColour).errPos = d.errPos := rfl
@[simp] theorem Dec.endColour_inLen (d : Dec) : (d.endColour).inLen = d.inLen := rfl
@[simp] theorem Dec.endColour_p (d : Dec) : (d.endColour).p = d.p + 1 := rfl
@[simp] theorem Dec.endColour_phase (d : Dec) : (d.endColour).phase = .runLen := rfl
@[simp] theorem Dec.endColour_x (d : Dec) : (d.endColour).x = d.x := rfl
@[simp] theorem Dec.endColour_y (d : Dec) : (d.endColour).y = d.y := rfl
@[simp] theorem Dec.endColour_acc (d : Dec) : (d.endColour).acc = d.acc := rfl
@[simp] theorem Dec.endColour_colour (d : Dec) : (d.endColour).colour = sampleOf d.acc := rfl
@[simp] theorem Dec.endColour_runlen (d : Dec) : (d.endColour).runlen = 0 := rfl

@[simp] theorem Dec.addRun_status (d : Dec) (n : Nat) : (d.addRun n).status = d.status := rfl
@[simp] theorem Dec.addRun_err (d : Dec) (n : Nat) : (d.addRun n).err = d.err := rfl
@[simp] theorem Dec.addRun_errPos (d : Dec) (n : Nat) : (d.addRun n).errPos = d.errPos := rfl
@[simp] theorem Dec.addRun_inLen (d : Dec) (n : Nat) : (d.addRun n).inLen = d.inLen := rfl
@[simp] theorem Dec.addRun_p (d : Dec) (n : Nat) : (d.addRun n).p = d.p + 1 := rfl
@[simp] theorem Dec.addRun_phase (d : Dec) (n : Nat) : (d.addRun n).phase = d.phase := rfl
@[simp] theorem Dec.addRun_x (d : Dec) (n : Nat) : (d.addRun n).x = d.x := rfl
@[simp] theorem Dec.addRun_y (d : Dec) (n : Nat) : (d.addRun n).y = d.y := rfl
@[simp] theorem Dec.addRun_acc (d : Dec) (n : Nat) : (d.addRun n).acc = d.acc := rfl
@[simp] theorem Dec.addRun_colour (d : Dec) (n : Nat) : (d.addRun n).colour = d.colour := rfl
@[simp] theorem Dec.addRun_runlen (d : Dec) (n : Nat) : (d.addRun n).runlen = d.runlen + n := rfl

@[simp] theorem Dec.raise_status (d : Dec) (f : ErrCode) (n : Nat) : (d.raise f n).status = .fault := rfl
@[simp] theorem Dec.raise_err (d : Dec) (f : ErrCode) (n : Nat) : (d.raise f n).err = f := rfl
@[simp] theorem Dec.raise_errPos (d : Dec) (f : ErrCode) (n : Nat) : (d.raise f n).errPos = n % 2 ^ 32 := rfl
@[simp] theorem Dec.raise_inLen (d : Dec) (f : ErrCode) (n : Nat) : (d.raise f n).inLen = d.inLen := rfl
@[simp] theorem Dec.raise_p (d : Dec) (f : ErrCode) (n : Nat) : (d.raise f n).p = d.p := rfl
@[simp] theorem Dec.raise_phase (d : Dec) (f : ErrCode) (n : Nat) : (d.raise f n).phase = d.phase := rfl
@[simp] theorem Dec.raise_x (d : Dec) (f : ErrCode) (n : Nat) : (d.raise f n).x = d.x := rfl
@[simp] theorem Dec.raise_y (d : Dec) (f : ErrCode) (n : Nat) : (d.raise f n).y = d.y := rfl
@[simp] theorem Dec.raise_acc (d : Dec) (f : ErrCode) (n : Nat) : (d.raise f n).acc = d.acc := rfl
@[simp] theorem Dec.raise_colour (d : Dec) (f : ErrCode) (n : Nat) : (d.raise f n).colour = d.colour := rfl
@[simp] theorem Dec.raise_runlen (d : Dec) (f : ErrCode) (n : Nat) : (d.raise f n).runlen = d.runlen := rfl

@[simp] theorem Dec.start_status (d : Dec) : (d.start).status = .busy := rfl
@[simp] theorem Dec.start_err (d : Dec) : (d.start).err = .none := rfl
@[simp] theorem Dec.start_errPos (d : Dec) : (d.start).errPos = 0 := rfl
@[simp] theorem Dec.start_inLen (d : Dec) : (d.start).inLen = d.inLen := rfl
@[simp] theorem Dec.start_p (d : Dec) : (d.start).p = 0 := rfl
@[simp] theorem Dec.start_phase (d : Dec) : (d.start).phase = .scan := rfl
@[simp] theorem Dec.start_x (d : Dec) : (d.start).x = 0 := rfl
@[simp] theorem Dec.start_y (d : Dec) : (d.start).y = 0 := rfl
@[simp] theorem Dec.start_acc (d : Dec) : (d.start).acc = 0 := rfl
@[simp] theorem Dec.start_colour (d : Dec) : (d.start).colour = 0 := rfl
@[simp] theorem Dec.start_runlen (d : Dec) : (d.start).runlen = 0 := rfl

@[simp] theorem Dec.moveCursor_toUnitCtl (c : Config) (d : Dec) : (d.moveCursor c).toUnitCtl = d.toUnitCtl := by
  unfold Dec.moveCursor; split <;> rfl
@[simp] theorem Dec.moveCursor_inLen (c : Config) (d : Dec) : (d.moveCursor c).inLen = d.inLen := by
  unfold Dec.moveCursor; split <;> rfl
@[simp] theorem Dec.moveCursor_p (c : Config) (d : Dec) : (d.moveCursor c).p = d.p := by
  unfold Dec.moveCursor; split <;> rfl
@[simp] theorem Dec.moveCursor_phase (c : Config) (d : Dec) : (d.moveCursor c).phase = d.phase := by
  unfold Dec.moveCursor; split <;> rfl
@[simp] theorem Dec.moveCursor_acc (c : Config) (d : Dec) : (d.moveCursor c).acc = d.acc := by
  unfold Dec.moveCursor; split <;> rfl
@[simp] theorem Dec.moveCursor_colour (c : Config) (d : Dec) : (d.moveCursor c).colour = d.colour := by
  unfold Dec.moveCursor; split <;> rfl
@[simp] theorem Dec.moveCursor_runlen (c : Config) (d : Dec) : (d.moveCursor c).runlen = d.runlen := by
  unfold Dec.moveCursor; split <;> rfl
theorem Dec.moveCursor_x (c : Config) (d : Dec) :
    (d.moveCursor c).x = if d.x + d.runlen = c.w then 0 else d.x + d.runlen := by
  unfold Dec.moveCursor; split <;> rfl
theorem Dec.moveCursor_y (c : Config) (d : Dec) :
    (d.moveCursor c).y = if d.x + d.runlen = c.w then d.y + 1 else d.y := by
  unfold Dec.moveCursor; split <;> rfl

/-! ### ENC's registers -/

@[simp] theorem Enc.raise_status (e : Enc) (f : ErrCode) (n : Nat) : (e.raise f n).status = .fault := rfl
@[simp] theorem Enc.raise_err (e : Enc) (f : ErrCode) (n : Nat) : (e.raise f n).err = f := rfl
@[simp] theorem Enc.raise_errPos (e : Enc) (f : ErrCode) (n : Nat) : (e.raise f n).errPos = n % 2 ^ 32 := rfl
@[simp] theorem Enc.raise_srcLen (e : Enc) (f : ErrCode) (n : Nat) : (e.raise f n).srcLen = e.srcLen := rfl
@[simp] theorem Enc.raise_pos (e : Enc) (f : ErrCode) (n : Nat) : (e.raise f n).pos = e.pos := rfl
@[simp] theorem Enc.raise_x (e : Enc) (f : ErrCode) (n : Nat) : (e.raise f n).x = e.x := rfl
@[simp] theorem Enc.raise_y (e : Enc) (f : ErrCode) (n : Nat) : (e.raise f n).y = e.y := rfl
@[simp] theorem Enc.raise_outLen (e : Enc) (f : ErrCode) (n : Nat) : (e.raise f n).outLen = e.outLen := rfl

@[simp] theorem Enc.restart_status (e : Enc) : e.restart.status = e.status := rfl
@[simp] theorem Enc.restart_err (e : Enc) : e.restart.err = .none := rfl
@[simp] theorem Enc.restart_errPos (e : Enc) : e.restart.errPos = 0 := rfl
@[simp] theorem Enc.restart_srcLen (e : Enc) : e.restart.srcLen = e.srcLen := rfl
@[simp] theorem Enc.restart_pos (e : Enc) : e.restart.pos = 0 := rfl
@[simp] theorem Enc.restart_x (e : Enc) : e.restart.x = 0 := rfl
@[simp] theorem Enc.restart_y (e : Enc) : e.restart.y = 0 := rfl
@[simp] theorem Enc.restart_outLen (e : Enc) : e.restart.outLen = 0 := rfl

@[simp] theorem Enc.afterRun_srcLen (c : Config) (e : Enc) (r : Nat) : (e.afterRun c r).srcLen = e.srcLen := by
  unfold Enc.afterRun; dsimp only; split <;> split <;> rfl
@[simp] theorem Enc.afterRun_outLen (c : Config) (e : Enc) (r : Nat) : (e.afterRun c r).outLen = e.outLen := by
  unfold Enc.afterRun; dsimp only; split <;> split <;> rfl
@[simp] theorem Enc.afterRun_err (c : Config) (e : Enc) (r : Nat) : (e.afterRun c r).err = e.err := by
  unfold Enc.afterRun; dsimp only; split <;> split <;> rfl
@[simp] theorem Enc.afterRun_errPos (c : Config) (e : Enc) (r : Nat) : (e.afterRun c r).errPos = e.errPos := by
  unfold Enc.afterRun; dsimp only; split <;> split <;> rfl
@[simp] theorem Enc.afterRun_pos (c : Config) (e : Enc) (r : Nat) : (e.afterRun c r).pos = e.pos + r := by
  unfold Enc.afterRun; dsimp only; split <;> split <;> rfl
theorem Enc.afterRun_x (c : Config) (e : Enc) (r : Nat) :
    (e.afterRun c r).x = if e.x + r = c.w then 0 else e.x + r := by
  unfold Enc.afterRun; dsimp only; split <;> split <;> rfl
theorem Enc.afterRun_y (c : Config) (e : Enc) (r : Nat) :
    (e.afterRun c r).y = if e.x + r = c.w then e.y + 1 else e.y := by
  unfold Enc.afterRun; dsimp only; split <;> split <;> rfl
theorem Enc.afterRun_status (c : Config) (e : Enc) (r : Nat) :
    (e.afterRun c r).status = if e.pos + r = c.nsamp then .done else e.status := by
  unfold Enc.afterRun
  by_cases h : e.x + r = c.w <;> by_cases h' : e.pos + r = c.nsamp <;> simp [h, h']

/-! ### Replacing a memory -/

@[simp] theorem State.setMem_cfg (s : State) (sp : Space) (m : Memory) : (s.setMem sp m).cfg = s.cfg := by
  cases sp <;> simp only [State.setMem]
  split <;> rfl
@[simp] theorem State.setMem_enc (s : State) (sp : Space) (m : Memory) : (s.setMem sp m).enc = s.enc := by
  cases sp <;> simp only [State.setMem]
  split <;> rfl
@[simp] theorem State.setMem_dec (s : State) (sp : Space) (m : Memory) : (s.setMem sp m).dec = s.dec := by
  cases sp <;> simp only [State.setMem]
  split <;> rfl
@[simp] theorem State.setMem_turns (s : State) (sp : Space) (m : Memory) : (s.setMem sp m).turns = s.turns := by
  cases sp <;> simp only [State.setMem]
  split <;> rfl
@[simp] theorem State.setMem_hostData (s : State) (sp : Space) (m : Memory) : (s.setMem sp m).hostData = s.hostData := by
  cases sp <;> simp only [State.setMem]
  split <;> rfl
@[simp] theorem State.setMem_contents (s : State) (sp : Space) (m : Memory) :
    (s.setMem sp m).contents = s.contents := by
  cases sp <;> simp only [State.setMem]
  split <;> rfl
@[simp] theorem State.setMem_unwritten (s : State) (sp : Space) (m : Memory) : (s.setMem sp m).unwritten = s.unwritten := by
  funext sq a
  simp [State.unwritten]
@[simp] theorem State.memOf_setMem (s : State) (sp : Space) (m : Memory) : (s.setMem sp m).memOf sp = m := by
  cases sp <;> simp only [State.setMem, State.memOf]
  split <;> simp_all

/-! ### Which free values unwritten bytes have -/

@[simp] theorem Contents.renew_src (k : Contents) : k.renew.src = k.src + 1 := rfl
@[simp] theorem Contents.renew_encStrm (k : Contents) : k.renew.encStrm = k.encStrm + 1 := rfl
@[simp] theorem Contents.renew_decStrm (k : Contents) : k.renew.decStrm = k.decStrm + 1 := rfl
@[simp] theorem Contents.renew_grid (k : Contents) : k.renew.grid = k.grid + 1 := rfl
@[simp] theorem Contents.renewEncStrm_src (k : Contents) : k.renewEncStrm.src = k.src := rfl
@[simp] theorem Contents.renewEncStrm_encStrm (k : Contents) : k.renewEncStrm.encStrm = k.encStrm + 1 := rfl
@[simp] theorem Contents.renewEncStrm_decStrm (k : Contents) : k.renewEncStrm.decStrm = k.decStrm := rfl
@[simp] theorem Contents.renewEncStrm_grid (k : Contents) : k.renewEncStrm.grid = k.grid := rfl

/-! ### Hardware reset -/

@[simp] theorem hardwareReset_cfg (s : State) : (hardwareReset s).cfg = s.cfg := rfl
@[simp] theorem hardwareReset_enc (s : State) : (hardwareReset s).enc = Enc.reset := rfl
@[simp] theorem hardwareReset_dec (s : State) : (hardwareReset s).dec = Dec.reset := rfl
@[simp] theorem hardwareReset_contents (s : State) : (hardwareReset s).contents = s.contents.renew := rfl
@[simp] theorem hardwareReset_turns (s : State) : (hardwareReset s).turns = s.turns := rfl
@[simp] theorem hardwareReset_hostData (s : State) : (hardwareReset s).hostData = s.hostData := rfl
@[simp] theorem hardwareReset_memOf (s : State) (sp : Space) : (hardwareReset s).memOf sp = [] := by
  cases sp <;> simp only [State.memOf, hardwareReset]
  exact ite_self _

end Sys2Proof.Machine
end

