-- ==== Sys2Proof/Laws/Memory.lean ====
section
/-! SUPPORT. The laws of memory: what a read sees after each kind of write, and that every memory operation keeps the
canonical form and the bound of its space. Equal reads of canonical memories are equal memories. -/

namespace Sys2Proof.Machine

/-! ### One byte -/

@[simp] theorem Memory.read_nil (a : Nat) : Memory.read [] a = none := rfl

theorem Memory.read_write (m : Memory) (a b : Nat) (v : Byte) :
    (m.write a v).read b = if b = a then some v else m.read b := by
  induction m with
  | nil => simp only [Memory.write, Memory.read, eq_comm]
  | cons c m ih =>
    obtain ⟨k, w⟩ := c
    simp only [Memory.write]
    split
    · simp only [Memory.read, eq_comm]
    · split
      · subst k; simp only [Memory.read, eq_comm]; split <;> simp_all
      · simp only [Memory.read, ih]; split <;> split <;> simp_all

@[simp] theorem Memory.read_write_same (m : Memory) (a : Nat) (v : Byte) : (m.write a v).read a = some v := by
  simp [Memory.read_write]

theorem Memory.read_write_other (m : Memory) {a b : Nat} (v : Byte) (h : b ≠ a) :
    (m.write a v).read b = m.read b := by
  simp [Memory.read_write, h]

/-! ### Rows and lists of bytes -/

theorem Memory.read_writeRun (m : Memory) (a n : Nat) (v : Byte) (i : Nat) :
    (m.writeRun a n v).read i = if a ≤ i ∧ i < a + n then some v else m.read i := by
  induction n generalizing m a with
  | zero => simp only [Memory.writeRun]; rw [if_neg (by omega)]
  | succ n ih =>
    simp only [Memory.writeRun, ih, Memory.read_write]
    split
    · rw [if_pos (by omega)]
    · split
      · rw [if_pos (by omega)]
      · rw [if_neg (by omega)]

theorem Memory.read_writeList (m : Memory) (a : Nat) (bs : List Byte) (i : Nat) :
    (m.writeList a bs).read i = if a ≤ i ∧ i < a + bs.length then bs[i - a]? else m.read i := by
  induction bs generalizing m a with
  | nil => simp only [Memory.writeList, List.length_nil]; rw [if_neg (by omega)]
  | cons b bs ih =>
    simp only [Memory.writeList, ih, Memory.read_write, List.length_cons]
    split
    · rw [if_pos (by omega)]
      have : i - a = (i - (a + 1)) + 1 := by omega
      rw [this, List.getElem?_cons_succ]
    · split
      · subst i; rw [if_pos (by omega)]; simp
      · rw [if_neg (by omega)]

/-- What was emitted stands in the memory. -/
theorem Memory.holdsAt_writeList (m : Memory) (a : Nat) (bs : List Byte) : HoldsAt (m.writeList a bs) a bs := by
  intro i hi
  rw [Memory.read_writeList, if_pos (by omega)]
  congr 1
  omega

theorem Memory.read_filled (b : Byte) (a n i : Nat) :
    (Memory.filled b a n).read i = if a ≤ i ∧ i < a + n then some b else none := by
  induction n generalizing a with
  | zero => simp only [Memory.filled, Memory.read_nil]; rw [if_neg (by omega)]
  | succ n ih =>
    simp only [Memory.filled, Memory.read, ih]
    split
    · rw [if_pos (by omega)]
    · split
      · rw [if_pos (by omega)]
      · rw [if_neg (by omega)]

/-- START_DEC's zero fill is the loop of R130: writing 0 to every cell of a memory that holds no other index. -/
theorem Memory.filled_eq_writeRun (b : Byte) (n i : Nat) :
    (Memory.filled b 0 n).read i = (Memory.writeRun [] 0 n b).read i := by
  rw [Memory.read_filled, Memory.read_writeRun, Memory.read_nil]

/-! ### The canonical form -/

/-- The head index of a canonical memory is below every other. -/
theorem Memory.wf_cons {k : Nat} {v : Byte} {m : Memory} :
    Memory.wf ((k, v) :: m) = true ↔ (∀ c ∈ m, k < c.1) ∧ m.wf = true := by
  induction m generalizing k v with
  | nil => simp [Memory.wf]
  | cons c m ih =>
    obtain ⟨j, w⟩ := c
    simp only [Memory.wf, Bool.and_eq_true, decide_eq_true_eq, List.mem_cons]
    constructor
    · rintro ⟨h, hw⟩
      refine ⟨?_, hw⟩
      rintro c (rfl | hc)
      · exact h
      · exact lt_trans h ((ih.mp hw).1 c hc)
    · rintro ⟨h, hw⟩
      exact ⟨h (j, w) (.inl rfl), hw⟩

theorem Memory.mem_write {m : Memory} {a : Nat} {v : Byte} {c : Host.Cell} (h : c ∈ m.write a v) :
    c = (a, v) ∨ c ∈ m := by
  induction m with
  | nil => simpa [Memory.write] using h
  | cons d m ih =>
    obtain ⟨k, w⟩ := d
    simp only [Memory.write] at h
    split at h
    · simpa using h
    · split at h
      · rcases List.mem_cons.mp h with h | h
        · exact .inl h
        · exact .inr (List.mem_cons_of_mem _ h)
      · rcases List.mem_cons.mp h with h | h
        · exact .inr (by simp [h])
        · rcases ih h with h | h
          · exact .inl h
          · exact .inr (List.mem_cons_of_mem _ h)

theorem Memory.wf_write {m : Memory} (a : Nat) (v : Byte) (h : m.wf = true) : (m.write a v).wf = true := by
  induction m with
  | nil => rfl
  | cons c m ih =>
    obtain ⟨k, w⟩ := c
    have ⟨hk, hm⟩ := Memory.wf_cons.mp h
    simp only [Memory.write]
    split
    · rename_i hlt
      refine Memory.wf_cons.mpr ⟨?_, h⟩
      intro c hc
      rcases List.mem_cons.mp hc with rfl | hc
      · exact hlt
      · exact lt_trans hlt (hk c hc)
    · split
      · rename_i heq
        subst heq
        exact Memory.wf_cons.mpr ⟨hk, hm⟩
      · refine Memory.wf_cons.mpr ⟨?_, ih hm⟩
        intro c hc
        rcases Memory.mem_write hc with rfl | hc
        · simp only; omega
        · exact hk c hc

theorem Memory.within_write {m : Memory} {n a : Nat} (v : Byte) (h : m.within n = true) (ha : a < n) :
    (m.write a v).within n = true := by
  simp only [Memory.within, List.all_eq_true, decide_eq_true_eq] at h ⊢
  intro c hc
  rcases Memory.mem_write hc with rfl | hc
  · exact ha
  · exact h c hc

theorem Memory.wf_writeRun {m : Memory} (a n : Nat) (v : Byte) (h : m.wf = true) : (m.writeRun a n v).wf = true := by
  induction n generalizing m a with
  | zero => exact h
  | succ n ih => exact ih _ (Memory.wf_write a v h)

theorem Memory.within_writeRun {m : Memory} {k : Nat} (a n : Nat) (v : Byte) (h : m.within k = true)
    (ha : a + n ≤ k) : (m.writeRun a n v).within k = true := by
  induction n generalizing m a with
  | zero => exact h
  | succ n ih => exact ih _ (Memory.within_write v h (by omega)) (by omega)

theorem Memory.wf_writeList {m : Memory} (a : Nat) (bs : List Byte) (h : m.wf = true) :
    (m.writeList a bs).wf = true := by
  induction bs generalizing m a with
  | nil => exact h
  | cons b bs ih => exact ih _ (Memory.wf_write a b h)

theorem Memory.within_writeList {m : Memory} {k : Nat} (a : Nat) (bs : List Byte) (h : m.within k = true)
    (ha : a + bs.length ≤ k) : (m.writeList a bs).within k = true := by
  induction bs generalizing m a with
  | nil => exact h
  | cons b bs ih =>
    simp only [List.length_cons] at ha
    exact ih _ (Memory.within_write b h (by omega)) (by omega)

theorem Memory.mem_filled {b : Byte} {a n : Nat} {c : Host.Cell} (h : c ∈ Memory.filled b a n) :
    a ≤ c.1 ∧ c.1 < a + n := by
  induction n generalizing a with
  | zero => simp [Memory.filled] at h
  | succ n ih =>
    rcases List.mem_cons.mp h with rfl | h
    · simp only; omega
    · have := ih h; omega

theorem Memory.wf_filled (b : Byte) (a n : Nat) : (Memory.filled b a n).wf = true := by
  induction n generalizing a with
  | zero => rfl
  | succ n ih =>
    exact Memory.wf_cons.mpr ⟨fun c hc => by have := Memory.mem_filled hc; omega, ih _⟩

theorem Memory.within_filled (b : Byte) (n : Nat) : (Memory.filled b 0 n).within n = true := by
  simp only [Memory.within, List.all_eq_true, decide_eq_true_eq]
  intro c hc
  have := Memory.mem_filled hc
  omega

theorem Memory.read_none_of_below {m : Memory} {a : Nat} (h : ∀ c ∈ m, a < c.1) : m.read a = none := by
  induction m with
  | nil => rfl
  | cons c m ih =>
    obtain ⟨k, v⟩ := c
    have hk := h (k, v) (by simp)
    simp only [Memory.read]
    rw [if_neg (by simp only at hk; omega)]
    exact ih fun c hc => h c (List.mem_cons_of_mem _ hc)

/-- Equal memories are equal data: two canonical memories that read alike are one list. -/
theorem Memory.ext_of_wf {m n : Memory} (hm : m.wf = true) (hn : n.wf = true) (h : ∀ a, m.read a = n.read a) :
    m = n := by
  induction m generalizing n with
  | nil =>
    cases n with
    | nil => rfl
    | cons c n => obtain ⟨k, v⟩ := c; have := h k; simp [Memory.read] at this
  | cons c m ih =>
    obtain ⟨k, v⟩ := c
    have ⟨hk, hm'⟩ := Memory.wf_cons.mp hm
    cases n with
    | nil => have := h k; simp [Memory.read] at this
    | cons d n =>
      obtain ⟨j, w⟩ := d
      have ⟨hj, hn'⟩ := Memory.wf_cons.mp hn
      have hkj : k = j := by
        have h1 := h k
        have h2 := h j
        simp only [Memory.read, if_true] at h1 h2
        by_contra hne
        rw [if_neg (Ne.symm hne)] at h1
        rw [if_neg hne] at h2
        rcases Nat.lt_or_gt_of_ne hne with hlt | hgt
        · rw [Memory.read_none_of_below fun c hc => lt_trans hlt (hj c hc)] at h1
          cases h1
        · rw [Memory.read_none_of_below fun c hc => lt_trans hgt (hk c hc)] at h2
          cases h2
      subst hkj
      have hv : v = w := by have := h k; simpa [Memory.read] using this
      subst hv
      congr 1
      refine ih hm' hn' fun a => ?_
      by_cases ha : k = a
      · subst ha; rw [Memory.read_none_of_below hk, Memory.read_none_of_below hj]
      · have := h a
        simpa [Memory.read, ha] using this

/-! ### Reads of the state -/

/-- A byte that has been written reads as it was written. -/
theorem State.byteAt_of_read {s : State} {sp : Space} {a : Nat} {b : Byte} (h : (s.memOf sp).read a = some b) :
    s.byteAt sp a = b := by
  simp [State.byteAt, h]

/-- Spaces that hold what was written in them read alike where their contents are the same ones. -/
theorem State.byteAt_congr {s t : State} {sp : Space} {a : Nat} (hc : t.cfg = s.cfg) (hk : t.contents = s.contents)
    (h : (t.memOf sp).read a = (s.memOf sp).read a) : t.byteAt sp a = s.byteAt sp a := by
  unfold State.byteAt State.unwritten
  rw [h, hc, hk]

/-- All that a memory read can do. -/
theorem State.load_eq_ok {s : State} {sp : Space} {a : Nat} {b : Byte} :
    s.load sp a = .ok b ↔ a < sp.size s.cfg ∧ s.byteAt sp a = b := by
  unfold State.load
  split
  · rename_i h; simp [h]
  · rename_i h; simp [h]

/-- A memory read completes at every index of its space. -/
theorem State.load_of_lt {s : State} {sp : Space} {a : Nat} (ha : a < sp.size s.cfg) :
    s.load sp a = .ok (s.byteAt sp a) := State.load_eq_ok.mpr ⟨ha, rfl⟩

theorem State.load_of_read {s : State} {sp : Space} {a : Nat} {b : Byte} (ha : a < sp.size s.cfg)
    (h : (s.memOf sp).read a = some b) : s.load sp a = .ok b :=
  State.load_eq_ok.mpr ⟨ha, State.byteAt_of_read h⟩

/-- The only way a memory read stops. -/
theorem State.load_eq_error {s : State} {sp : Space} {a : Nat} {f : Fault} (h : s.load sp a = .error f) :
    sp.size s.cfg ≤ a ∧ f = .noSuchAddress sp a := by
  unfold State.load at h
  split at h
  · cases h
  · rename_i ha
    injection h with h
    exact ⟨Nat.le_of_not_lt ha, h.symm⟩

/-- Bytes written in a space stand in it. -/
theorem spaceHolds_of_holdsAt {s : State} {sp : Space} {a : Nat} {bs : List Byte} (h : HoldsAt (s.memOf sp) a bs) :
    SpaceHolds s sp a bs := by
  intro i hi
  have hr := h i hi
  rw [List.getElem?_eq_getElem hi] at hr ⊢
  rw [State.byteAt_of_read hr]

/-! ### Lists of bytes in a memory -/

theorem holdsAt_append {m : Memory} {a : Nat} {xs ys : List Byte} :
    HoldsAt m a (xs ++ ys) ↔ HoldsAt m a xs ∧ HoldsAt m (a + xs.length) ys := by
  constructor
  · intro h
    refine ⟨fun i hi => ?_, fun i hi => ?_⟩
    · rw [h i (by simp; omega), List.getElem?_append_left hi]
    · have := h (xs.length + i) (by simp; omega)
      rw [Nat.add_assoc, this, List.getElem?_append_right (by omega)]
      congr 1
      omega
  · rintro ⟨h1, h2⟩ i hi
    by_cases hx : i < xs.length
    · rw [h1 i hx, List.getElem?_append_left hx]
    · have := h2 (i - xs.length) (by simp at hi; omega)
      rw [show a + i = a + xs.length + (i - xs.length) by omega, this, List.getElem?_append_right (by omega)]

theorem holdsAt_cons {m : Memory} {a : Nat} {x : Byte} {ys : List Byte} :
    HoldsAt m a (x :: ys) ↔ m.read a = some x ∧ HoldsAt m (a + 1) ys := by
  have h := holdsAt_append (m := m) (a := a) (xs := [x]) (ys := ys)
  rw [List.singleton_append] at h
  rw [h]
  refine and_congr_left' ⟨fun h => h 0 (by simp), fun h i hi => ?_⟩
  obtain rfl : i = 0 := by simp at hi; omega
  simpa using h

theorem spaceHolds_append {s : State} {sp : Space} {a : Nat} {xs ys : List Byte} :
    SpaceHolds s sp a (xs ++ ys) ↔ SpaceHolds s sp a xs ∧ SpaceHolds s sp (a + xs.length) ys := by
  constructor
  · intro h
    refine ⟨fun i hi => ?_, fun i hi => ?_⟩
    · rw [h i (by simp; omega), List.getElem?_append_left hi]
    · have := h (xs.length + i) (by simp; omega)
      rw [Nat.add_assoc, this, List.getElem?_append_right (by omega)]
      congr 1
      omega
  · rintro ⟨h1, h2⟩ i hi
    by_cases hx : i < xs.length
    · rw [h1 i hx, List.getElem?_append_left hx]
    · have := h2 (i - xs.length) (by simp at hi; omega)
      rw [show a + i = a + xs.length + (i - xs.length) by omega, this, List.getElem?_append_right (by omega)]

theorem spaceHolds_cons {s : State} {sp : Space} {a : Nat} {x : Byte} {ys : List Byte} :
    SpaceHolds s sp a (x :: ys) ↔ s.byteAt sp a = x ∧ SpaceHolds s sp (a + 1) ys := by
  have h := spaceHolds_append (s := s) (sp := sp) (a := a) (xs := [x]) (ys := ys)
  rw [List.singleton_append] at h
  rw [h]
  refine and_congr_left' ⟨fun h => by simpa using h 0 (by simp), fun h i hi => ?_⟩
  obtain rfl : i = 0 := by simp at hi; omega
  simpa using h

/-! ### The memories of a state -/

/-- Each space of a good state is canonical and within its bound. -/
theorem MemOk.memOf {s : State} (h : MemOk s) (sp : Space) :
    (s.memOf sp).wf = true ∧ (s.memOf sp).within (sp.size s.cfg) = true := by
  cases sp
  · exact h.1
  · exact h.2.1
  · unfold State.memOf
    dsimp only
    split
    · exact h.2.1
    · exact h.2.2.1
  · exact h.2.2.2

/-- Replacing a space by a canonical memory within its bound keeps the memories good. -/
theorem MemOk.setMem {s : State} {sp : Space} {m : Memory} (h : MemOk s) (hw : m.wf = true)
    (hn : m.within (sp.size s.cfg) = true) : MemOk (s.setMem sp m) := by
  cases sp
  · exact ⟨⟨hw, hn⟩, h.2⟩
  · exact ⟨h.1, ⟨hw, hn⟩, h.2.2⟩
  · unfold State.setMem
    dsimp only
    split
    · exact ⟨h.1, ⟨hw, hn⟩, h.2.2⟩
    · exact ⟨h.1, h.2.1, ⟨hw, hn⟩, h.2.2.2⟩
  · exact ⟨h.1, h.2.1, h.2.2.1, ⟨hw, hn⟩⟩

/-- A store keeps the memories good. -/
theorem MemOk.store {s t : State} {sp : Space} {a : Nat} {b : Byte} (h : MemOk s) (ht : s.store sp a b = .ok t) :
    MemOk t := by
  unfold State.store at ht
  split at ht
  · rename_i ha
    injection ht with ht
    subst ht
    exact h.setMem (Memory.wf_write _ _ (h.memOf sp).1) (Memory.within_write _ (h.memOf sp).2 ha)
  · cases ht

/-- A byte just written reads back. -/
theorem State.byteAt_setMem_write (s : State) (sp : Space) (a : Nat) (b : Byte) :
    (s.setMem sp ((s.memOf sp).write a b)).byteAt sp a = b := by
  apply State.byteAt_of_read
  simp

end Sys2Proof.Machine
end

