-- ==== Sys2Proof/Laws/Decoder.lean ====
section
/-! SUPPORT. What an opcode and a turn of DEC can do, said once: one lemma for each phase, the cases of a next state, and
the only ways to stop. Later proofs cite these and do not unfold the meanings. -/

namespace Sys2Proof.Machine

@[simp] theorem State.decBusy_eq_true {s : State} : s.decBusy = true ↔ s.dec.status = .busy := by
  simp [State.decBusy]

@[simp] theorem State.encBusy_eq_true {s : State} : s.encBusy = true ↔ s.enc.status = .busy := by
  simp [State.encBusy]

theorem Dec.byteFollows_eq_true {d : Dec} : d.byteFollows = true ↔ d.p + 1 < d.inLen := by
  simp [Dec.byteFollows]

theorem Dec.outOfBounds_eq_true {c : Config} {d : Dec} :
    d.outOfBounds c = true ↔ 1 ≤ d.runlen ∧ (c.w < d.x + d.runlen ∨ c.h ≤ d.y) := by
  simp [Dec.outOfBounds]

/-! ### An opcode, phase by phase -/

theorem exec_scan {s : State} (h : DecIn s .scan) (i : Instr) :
    exec i s = if i = .toolLine then scanToolLine s else if i = .advanceYPaint then scanAdvancePaint s
      else passOver s := by
  cases i <;> simp only [exec, execRun, execAdvanceYPaint, execAdvanceYSkip, execToolNone, execToolLine,
    execColourEnd, execTargetXReset, execData, execReserved20, execReserved42, execReserved44, execReserved48,
    execReserved50, execReserved60, execReserved82, execReserved85, execReserved86, execReserved88, execReserved90,
    execReservedA0, operandOnly, byPhase, h.1, h.2, if_true, reduceCtorEq, if_false]

theorem exec_cSkip {s : State} (h : DecIn s .cSkip) (i : Instr) : exec i s = onDec Dec.skip s := by
  cases i <;> simp only [exec, execRun, execAdvanceYPaint, execAdvanceYSkip, execToolNone, execToolLine,
    execColourEnd, execTargetXReset, execData, execReserved20, execReserved42, execReserved44, execReserved48,
    execReserved50, execReserved60, execReserved82, execReserved85, execReserved86, execReserved88, execReserved90,
    execReservedA0, operandOnly, byPhase, h.1, h.2, if_true]

theorem exec_cSeed {s : State} (h : DecIn s .cSeed) (i : Instr) :
    exec i s = onDec (fun d => d.seed (encode i)) s := by
  cases i <;> simp only [exec, execRun, execAdvanceYPaint, execAdvanceYSkip, execToolNone, execToolLine,
    execColourEnd, execTargetXReset, execData, execReserved20, execReserved42, execReserved44, execReserved48,
    execReserved50, execReserved60, execReserved82, execReserved85, execReserved86, execReserved88, execReserved90,
    execReservedA0, operandOnly, byPhase, h.1, h.2, if_true]

theorem exec_cAcc {s : State} (h : DecIn s .cAcc) (i : Instr) :
    exec i s = if i = .colourEnd then onDec Dec.endColour s else onDec (fun d => d.accumulate (encode i)) s := by
  cases i <;> simp only [exec, execRun, execAdvanceYPaint, execAdvanceYSkip, execToolNone, execToolLine,
    execColourEnd, execTargetXReset, execData, execReserved20, execReserved42, execReserved44, execReserved48,
    execReserved50, execReserved60, execReserved82, execReserved85, execReserved86, execReserved88, execReserved90,
    execReservedA0, operandOnly, byPhase, takeGroup, h.1, h.2, if_true, reduceCtorEq, if_false]

theorem exec_runLen {s : State} (h : DecIn s .runLen) (i : Instr) :
    (∃ n, i = .run n ∧ exec i s = onDec (fun d => d.addRun (chunkValue n)) s) ∨
    ((i = .advanceYPaint ∨ i = .advanceYSkip) ∧ exec i s = terminate s) ∨
    ((∀ n, i ≠ .run n) ∧ i ≠ .advanceYPaint ∧ i ≠ .advanceYSkip ∧ exec i s = malformedRun s) := by
  cases i with
  | run n => exact .inl ⟨n, rfl, by simp only [exec, execRun, byPhase, h.1, h.2, if_true]⟩
  | advanceYPaint =>
    exact .inr (.inl ⟨.inl rfl, by simp only [exec, execAdvanceYPaint, byPhase, h.1, h.2, if_true]⟩)
  | advanceYSkip =>
    exact .inr (.inl ⟨.inr rfl, by simp only [exec, execAdvanceYSkip, byPhase, h.1, h.2, if_true]⟩)
  | _ =>
    refine .inr (.inr ⟨nofun, nofun, nofun, ?_⟩)
    simp only [exec, execToolNone, execToolLine,
      execColourEnd, execTargetXReset, execData, execReserved20, execReserved42, execReserved44, execReserved48,
      execReserved50, execReserved60, execReserved82, execReserved85, execReserved86, execReserved88, execReserved90,
      execReservedA0, operandOnly, byPhase, h.1, h.2, if_true]

/-- Where DEC has no enabled step, no opcode has an effect. -/
theorem exec_not_enabled {s : State} (h : s.dec.status ≠ .busy ∨ s.dec.phase = .idle) (i : Instr) :
    exec i s = .fault .noEnabledStep := by
  have key : ∀ b f g k, byPhase b f g k s = .fault .noEnabledStep := by
    intro b f g k
    unfold byPhase
    rcases h with h | h
    · rw [if_neg h]
    · split
      · rw [h]
      · rfl
  cases i <;> exact key _ _ _ _

/-! ### The lookahead of the two trigger opcodes -/

/-- All that TOOL_LINE can do in SCAN. -/
theorem scanToolLine_eq (s : State) :
    scanToolLine s = .next { s with dec := if s.dec.byteFollows then s.dec.trigger else s.dec.passOver } := by
  unfold scanToolLine passOver onDec
  split <;> simp_all

/-- All that ADVANCE_Y_PAINT can do in SCAN. -/
theorem scanAdvancePaint_cases (s : State) :
    (s.dec.byteFollows = false ∧ scanAdvancePaint s = .next { s with dec := s.dec.passOver }) ∨
    (s.dec.byteFollows = true ∧
      ((∃ f, s.load .decStrm (s.dec.p + 1) = .error f ∧ scanAdvancePaint s = .fault f) ∨
       (s.load .decStrm (s.dec.p + 1) = .ok Vocab.toolNone ∧
          scanAdvancePaint s = .next { s with dec := s.dec.passOver }) ∨
       (∃ b, b ≠ Vocab.toolNone ∧ s.load .decStrm (s.dec.p + 1) = .ok b ∧
          scanAdvancePaint s = .next { s with dec := s.dec.trigger }))) := by
  unfold scanAdvancePaint passOver onDec
  cases hf : s.dec.byteFollows with
  | false => exact .inl ⟨rfl, by simp⟩
  | true =>
    refine .inr ⟨rfl, ?_⟩
    cases hl : s.load .decStrm (s.dec.p + 1) with
    | error f => exact .inl ⟨f, rfl, by simp⟩
    | ok b =>
      by_cases hb : b = Vocab.toolNone
      · subst hb; exact .inr (.inl ⟨rfl, by simp⟩)
      · exact .inr (.inr ⟨b, hb, rfl, by simp only [if_true, if_neg hb]⟩)

/-! ### Every next state of an opcode -/

/-- The DEC registers after an opcode that only changes DEC's registers. -/
theorem onDec_next {f : Dec → Dec} {s t : State} (h : onDec f s = .next t) : t = { s with dec := f s.dec } := by
  unfold onDec at h
  injection h with h
  exact h.symm

/-- What an opcode leads to, if it leads to a next state. -/
theorem exec_next {i : Instr} {s t : State} (h : exec i s = .next t) :
    s.dec.status = .busy ∧
    ((s.dec.phase = .scan ∧ t = { s with dec := s.dec.passOver }) ∨
     (s.dec.phase = .scan ∧ (i = .toolLine ∨ i = .advanceYPaint) ∧ s.dec.byteFollows = true ∧
        t = { s with dec := s.dec.trigger }) ∨
     (s.dec.phase = .cSkip ∧ t = { s with dec := s.dec.skip }) ∨
     (s.dec.phase = .cSeed ∧ t = { s with dec := s.dec.seed (encode i) }) ∨
     (s.dec.phase = .cAcc ∧ i = .colourEnd ∧ t = { s with dec := s.dec.endColour }) ∨
     (s.dec.phase = .cAcc ∧ i ≠ .colourEnd ∧ t = { s with dec := s.dec.accumulate (encode i) }) ∨
     (s.dec.phase = .runLen ∧ (∃ n, i = .run n ∧ t = { s with dec := s.dec.addRun (chunkValue n) })) ∨
     (s.dec.phase = .runLen ∧ (i = .advanceYPaint ∨ i = .advanceYSkip) ∧ s.dec.outOfBounds s.cfg = true ∧
        t = { s with dec := s.dec.raise .outOfBoundsWrite s.dec.p }) ∨
     (s.dec.phase = .runLen ∧ (i = .advanceYPaint ∨ i = .advanceYSkip) ∧ s.dec.outOfBounds s.cfg = false ∧
        t = { s with grid := s.grid.writeRun (s.dec.cursorIndex s.cfg) s.dec.runlen s.dec.colour,
                     dec := { s.dec.moveCursor s.cfg with phase := .scan } }) ∨
     (s.dec.phase = .runLen ∧ (∀ n, i ≠ .run n) ∧ i ≠ .advanceYPaint ∧ i ≠ .advanceYSkip ∧
        t = { s with dec := s.dec.raise .malformedRunSequence s.dec.p })) := by
  by_cases hb : s.dec.status = .busy
  swap
  · rw [exec_not_enabled (.inl hb)] at h; cases h
  refine ⟨hb, ?_⟩
  cases hp : s.dec.phase with
  | idle => rw [exec_not_enabled (.inr hp)] at h; cases h
  | scan =>
    rw [exec_scan ⟨hb, hp⟩] at h
    split at h
    · rename_i hi
      rw [scanToolLine_eq] at h
      injection h with h
      cases hf : s.dec.byteFollows
      · left; refine ⟨rfl, ?_⟩; rw [← h, hf]; rfl
      · right; left; refine ⟨rfl, .inl hi, rfl, ?_⟩; rw [← h, hf]; rfl
    · split at h
      · rename_i hi
        rcases scanAdvancePaint_cases s with ⟨_, e⟩ | ⟨hf, ⟨f, _, e⟩ | ⟨_, e⟩ | ⟨b, _, _, e⟩⟩ <;> rw [e] at h
        · injection h with h; exact .inl ⟨rfl, h.symm⟩
        · cases h
        · injection h with h; exact .inl ⟨rfl, h.symm⟩
        · injection h with h; exact .inr (.inl ⟨rfl, .inr hi, hf, h.symm⟩)
      · exact .inl ⟨rfl, onDec_next h⟩
  | cSkip =>
    rw [exec_cSkip ⟨hb, hp⟩] at h
    exact .inr (.inr (.inl ⟨rfl, onDec_next h⟩))
  | cSeed =>
    rw [exec_cSeed ⟨hb, hp⟩] at h
    exact .inr (.inr (.inr (.inl ⟨rfl, onDec_next h⟩)))
  | cAcc =>
    rw [exec_cAcc ⟨hb, hp⟩] at h
    split at h
    · rename_i hi; exact .inr (.inr (.inr (.inr (.inl ⟨rfl, hi, onDec_next h⟩))))
    · rename_i hi; exact .inr (.inr (.inr (.inr (.inr (.inl ⟨rfl, hi, onDec_next h⟩)))))
  | runLen =>
    refine .inr (.inr (.inr (.inr (.inr (.inr ?_)))))
    rcases exec_runLen ⟨hb, hp⟩ i with ⟨n, hi, e⟩ | ⟨hi, e⟩ | ⟨h1, h2, h3, e⟩ <;> rw [e] at h
    · exact .inl ⟨rfl, n, hi, onDec_next h⟩
    · unfold terminate raiseDec at h
      split at h
      · rename_i ho; injection h with h; exact .inr (.inl ⟨rfl, hi, ho, h.symm⟩)
      · rename_i ho; injection h with h; exact .inr (.inr (.inl ⟨rfl, hi, by simpa using ho, h.symm⟩))
    · unfold malformedRun raiseDec at h
      injection h with h
      exact .inr (.inr (.inr ⟨rfl, h1, h2, h3, h.symm⟩))

/-- The only ways an opcode stops: DEC has no enabled step, or the lookahead lies outside STRM. -/
theorem exec_stops {i : Instr} {s : State} (h : ∀ t, exec i s ≠ .next t) :
    ((s.dec.status ≠ .busy ∨ s.dec.phase = .idle) ∧ exec i s = .fault .noEnabledStep) ∨
    (DecIn s .scan ∧ i = .advanceYPaint ∧ s.dec.byteFollows = true ∧
      s.cfg.streamCap ≤ s.dec.p + 1 ∧ exec i s = .fault (.noSuchAddress .decStrm (s.dec.p + 1))) := by
  by_cases hb : s.dec.status = .busy
  swap
  · exact .inl ⟨.inl hb, exec_not_enabled (.inl hb) i⟩
  cases hp : s.dec.phase with
  | idle => exact .inl ⟨.inr rfl, exec_not_enabled (.inr hp) i⟩
  | scan =>
    right
    rw [exec_scan ⟨hb, hp⟩] at h ⊢
    split at h
    · rw [scanToolLine_eq] at h; exact absurd rfl (h _)
    · split at h
      · rename_i h1 hi
        rcases scanAdvancePaint_cases s with ⟨_, e⟩ | ⟨hf, ⟨f, hl, e⟩ | ⟨_, e⟩ | ⟨b, _, _, e⟩⟩
        · rw [e] at h; exact absurd rfl (h _)
        · obtain ⟨ha, rfl⟩ := State.load_eq_error hl
          refine ⟨⟨hb, hp⟩, hi, hf, ha, ?_⟩
          rw [if_neg h1, if_pos hi, e]
        · rw [e] at h; exact absurd rfl (h _)
        · rw [e] at h; exact absurd rfl (h _)
      · exact absurd rfl (h _)
  | cSkip => rw [exec_cSkip ⟨hb, hp⟩] at h; exact absurd rfl (h _)
  | cSeed => rw [exec_cSeed ⟨hb, hp⟩] at h; exact absurd rfl (h _)
  | cAcc => rw [exec_cAcc ⟨hb, hp⟩] at h; split at h <;> exact absurd rfl (h _)
  | runLen =>
    rcases exec_runLen ⟨hb, hp⟩ i with ⟨n, hi, e⟩ | ⟨hi, e⟩ | ⟨h1, h2, h3, e⟩ <;> rw [e] at h
    · exact absurd rfl (h _)
    · unfold terminate raiseDec at h; split at h <;> exact absurd rfl (h _)
    · exact absurd rfl (h _)

/-! ### The end of the stream and a turn of DEC -/

theorem endOfStream_next {s t : State} (h : endOfStream s = .next t) :
    (s.dec.phase = .scan ∧ t = { s with dec := { s.dec with toUnitCtl := s.dec.toUnitCtl.finish } }) ∨
    ((s.dec.phase = .cSkip ∨ s.dec.phase = .cSeed ∨ s.dec.phase = .cAcc) ∧
      t = { s with dec := s.dec.raise .malformedColourSequence s.dec.p }) ∨
    (s.dec.phase = .runLen ∧ t = { s with dec := s.dec.raise .malformedRunSequence s.dec.p }) := by
  unfold endOfStream raiseDec at h
  cases hp : s.dec.phase <;> rw [hp] at h <;> simp only at h
  · cases h
  · exact .inl ⟨rfl, onDec_next h⟩
  all_goals (injection h with h; simp [← h])

/-- What a turn of DEC leads to, if it leads to a next state. -/
theorem decTurn_next {s t : State} (h : decTurn s = .next t) :
    (s.dec.status ≠ .busy ∧ t = s) ∨
    (s.dec.status = .busy ∧ s.dec.p = s.dec.inLen ∧ endOfStream s = .next t) ∨
    (s.dec.status = .busy ∧ s.dec.p ≠ s.dec.inLen ∧
      ∃ b, fetchByte s = .ok b ∧ exec (decodeByte b) s = .next t) := by
  unfold decTurn at h
  split at h
  · rename_i hb
    rw [State.decBusy_eq_true] at hb
    split at h
    · rename_i hp; exact .inr (.inl ⟨hb, hp, h⟩)
    · rename_i hp
      refine .inr (.inr ⟨hb, hp, ?_⟩)
      cases hf : fetchByte s with
      | error f => rw [hf] at h; cases h
      | ok b => rw [hf] at h; exact ⟨b, rfl, h⟩
  · rename_i hb
    rw [State.decBusy_eq_true] at hb
    injection h with h
    exact .inl ⟨hb, h.symm⟩

theorem decTurn_of_fetch {s : State} {b : Byte} (hb : s.dec.status = .busy) (hp : s.dec.p ≠ s.dec.inLen)
    (hf : fetchByte s = .ok b) : decTurn s = exec (decodeByte b) s := by
  simp [decTurn, hb, hp, hf]

theorem decTurn_of_end {s : State} (hb : s.dec.status = .busy) (hp : s.dec.p = s.dec.inLen) :
    decTurn s = endOfStream s := by
  simp [decTurn, hb, hp]

/-- START_DEC, if it leads to a next state: nothing while BUSY, a fresh pass otherwise. -/
theorem startDec_next {s t : State} (h : startDec s = .next t) :
    (s.dec.status = .busy ∧ t = s) ∨
    (s.dec.status ≠ .busy ∧ ¬(s.cfg.sharedStrm = true ∧ s.enc.status = .busy) ∧
      t = { s with dec := s.dec.start, grid := Memory.filled 0 0 s.cfg.nsamp }) := by
  unfold startDec at h
  split at h
  · rename_i hb; injection h with h; exact .inl ⟨by simpa using hb, h.symm⟩
  · rename_i hb
    split at h
    · cases h
    · rename_i hs
      injection h with h
      exact .inr ⟨by simpa using hb, by simpa using hs, h.symm⟩

/-! ### Which byte an opcode is -/

/-- The four opcodes that are told apart by their value are each one byte. -/
theorem decodeByte_eq_control (b : Byte) :
    (decodeByte b = .toolLine ↔ b = 0x81) ∧ (decodeByte b = .advanceYPaint ↔ b = 0x40) ∧
    (decodeByte b = .advanceYSkip ↔ b = 0x41) ∧ (decodeByte b = .colourEnd ↔ b = 0x83) := by
  revert b
  decide +kernel

/-- A terminator in RUNLEN. -/
theorem exec_terminator {i : Instr} {s : State} (hi : i = .advanceYPaint ∨ i = .advanceYSkip) (h : DecIn s .runLen) :
    exec i s = terminate s := by
  rcases exec_runLen h i with ⟨m, rfl, _⟩ | ⟨_, e⟩ | ⟨_, h1, h2, _⟩
  · simp at hi
  · exact e
  · exact absurd hi (by simp [h1, h2])

/-- The byte at the scan position, written or not (R131). -/
theorem fetchByte_of_lt {s : State} (hp : s.dec.p < s.cfg.streamCap) : fetchByte s = .ok (s.byteAt .decStrm s.dec.p) :=
  State.load_of_lt (sp := .decStrm) hp

/-- The byte at the scan position, where it has been written. -/
theorem fetchByte_of_read {s : State} {b : Byte} (hp : s.dec.p < s.cfg.streamCap)
    (h : (s.memOf .decStrm).read s.dec.p = some b) : fetchByte s = .ok b :=
  State.load_of_read (sp := .decStrm) hp h

end Sys2Proof.Machine
end

