-- ==== Sys2Proof/Laws/Encoder.lean ====
section
/-! SUPPORT. What ENC's operations can do, said once: the packer and the chunker, `Emit`, the run scan, START_ENC and the
iteration. -/

namespace Sys2Proof.Machine

/-! ### Emitted bytes -/

@[simp] theorem length_pack (s : Byte) : (pack s).length = 7 := rfl

@[simp] theorem length_wrapSeq : wrapSeq.length = 4 := rfl

@[simp] theorem length_chunks (l : Nat) : (chunks l).length = nchunks l := by
  unfold chunks nchunks
  split <;> simp

@[simp] theorem length_paintSeq (s : Byte) (l : Nat) : (paintSeq s l).length = 8 + nchunks l := by
  simp [paintSeq]; omega

/-- A run of length at least 1 has at most as many chunks as samples. -/
theorem nchunks_le {l : Nat} : nchunks l ≤ l := by
  unfold nchunks Vocab.chunkMax
  split <;> omega

theorem nchunks_pos {l : Nat} (h : 1 ≤ l) : 1 ≤ nchunks l := by
  unfold nchunks Vocab.chunkMax
  split <;> omega

theorem length_runBytes (c : Config) (x : Nat) (r : Run) :
    (runBytes c x r).length = 8 + nchunks r.len + if x + r.len = c.w then 4 else 0 := by
  unfold runBytes
  split <;> simp

/-! ### Emit -/

/-- All that `Emit` can do. -/
theorem emit_eq_ok {bs : List Byte} {s t : State} :
    emit bs s = .ok t ↔ s.enc.outLen + bs.length ≤ s.cfg.streamCap ∧
      t = { s with encStrm := s.encStrm.writeList s.enc.outLen bs,
                   enc := { s.enc with outLen := s.enc.outLen + bs.length } } := by
  unfold emit
  split
  · rename_i h; simp only [Except.ok.injEq, h, true_and, eq_comm]
  · rename_i h; simp [h]

/-! ### The run scan -/

/-- What the run scan finds: `k` samples equal to `v`, and either no room is left or the next sample differs (R103). -/
theorem scanRun_ok {s : State} {v : Byte} {a n k : Nat} (h : scanRun s v a n = .ok k) :
    k ≤ n ∧ (∀ j, j < k → s.load .src (a + j) = .ok v) ∧
    (k < n → ∃ b, b ≠ v ∧ s.load .src (a + k) = .ok b) := by
  induction n generalizing a k with
  | zero => simp only [scanRun, Except.ok.injEq] at h; subst h; exact ⟨le_rfl, by simp, by simp⟩
  | succ n ih =>
    simp only [scanRun] at h
    cases hl : s.load .src a with
    | error f => rw [hl] at h; cases h
    | ok b =>
      rw [hl] at h
      by_cases hb : b = v
      · subst hb
        simp only [if_true] at h
        cases hr : scanRun s b (a + 1) n with
        | error f => rw [hr] at h; cases h
        | ok m =>
          rw [hr] at h
          simp only [Except.ok.injEq] at h
          subst h
          have ⟨h1, h2, h3⟩ := ih hr
          refine ⟨by omega, ?_, ?_⟩
          · intro j hj
            cases j with
            | zero => exact hl
            | succ j => rw [← h2 j (by omega)]; congr 1; omega
          · intro hk
            obtain ⟨c, hc, hlc⟩ := h3 (by omega)
            exact ⟨c, hc, by rw [← hlc]; congr 1; omega⟩
      · simp only [hb, if_false, Except.ok.injEq] at h
        subst h
        exact ⟨by omega, by simp, fun _ => ⟨b, hb, hl⟩⟩

/-- The run scan completes where every sample it may read can be read. -/
theorem scanRun_completes {s : State} (v : Byte) {a n : Nat} (h : ∀ i, a ≤ i → i < a + n → ∃ b, s.load .src i = .ok b) :
    ∃ k, scanRun s v a n = .ok k := by
  induction n generalizing a with
  | zero => exact ⟨0, rfl⟩
  | succ n ih =>
    obtain ⟨b, hb⟩ := h a (by omega) (by omega)
    obtain ⟨k, hk⟩ := ih (a := a + 1) (fun i h1 h2 => h i (by omega) (by omega))
    by_cases hv : b = v
    · exact ⟨k + 1, by simp [scanRun, hb, hv, hk]⟩
    · exact ⟨0, by simp [scanRun, hb, hv]⟩

/-- The only way the run scan stops. -/
theorem scanRun_error {s : State} {v : Byte} {a n : Nat} {f : Fault} (h : scanRun s v a n = .error f) :
    ∃ i, a ≤ i ∧ i < a + n ∧ s.load .src i = .error f := by
  induction n generalizing a with
  | zero => cases h
  | succ n ih =>
    simp only [scanRun] at h
    cases hl : s.load .src a with
    | error g => rw [hl] at h; injection h with h; subst h; exact ⟨a, le_rfl, by omega, hl⟩
    | ok b =>
      rw [hl] at h
      by_cases hb : b = v
      · simp only [hb, if_true] at h
        cases hr : scanRun s v (a + 1) n with
        | error g =>
          rw [hr] at h; injection h with h; subst h
          obtain ⟨i, h1, h2, h3⟩ := ih hr
          exact ⟨i, by omega, by omega, h3⟩
        | ok m => rw [hr] at h; cases h
      · simp [hb] at h

/-- What `findRun` finds (R103): the sample at the pointer, and the maximal run of it inside the row. -/
theorem findRun_ok {s : State} {r : Run} (h : findRun s = .ok r) :
    1 ≤ r.len ∧ r.len ≤ s.cfg.w - (s.enc.x + 1) + 1 ∧
    (∀ j, j < r.len → s.load .src (s.enc.pos + j) = .ok r.sample) ∧
    (r.len < s.cfg.w - (s.enc.x + 1) + 1 → ∃ b, b ≠ r.sample ∧ s.load .src (s.enc.pos + r.len) = .ok b) := by
  unfold findRun at h
  cases hl : s.load .src s.enc.pos with
  | error f => rw [hl] at h; cases h
  | ok v =>
    rw [hl] at h
    dsimp only at h
    cases hr : scanRun s v (s.enc.pos + 1) (s.cfg.w - (s.enc.x + 1)) with
    | error f => rw [hr] at h; cases h
    | ok k =>
      rw [hr] at h
      simp only [Except.ok.injEq] at h
      subst h
      have ⟨h1, h2, h3⟩ := scanRun_ok hr
      refine ⟨by simp, by simpa using h1, ?_, ?_⟩
      · intro j hj
        cases j with
        | zero => exact hl
        | succ j =>
          have := h2 j (by simpa using hj)
          rw [← this]; congr 1; omega
      · intro hk
        obtain ⟨b, hb, e⟩ := h3 (by simpa using hk)
        exact ⟨b, hb, by rw [← e]; congr 1; simp only; omega⟩

/-- The run at the sample pointer is found wherever its row lies in SRC, whatever SRC holds (R103). -/
theorem findRun_completes {s : State} (hp : s.enc.pos + (s.cfg.w - (s.enc.x + 1)) < s.cfg.nsamp) :
    ∃ r, findRun s = .ok r := by
  have hl : s.load .src s.enc.pos = .ok (s.byteAt .src s.enc.pos) :=
    State.load_of_lt (show s.enc.pos < s.cfg.nsamp by omega)
  obtain ⟨k, hk⟩ := scanRun_completes (s := s) (s.byteAt .src s.enc.pos) (a := s.enc.pos + 1)
    (n := s.cfg.w - (s.enc.x + 1)) fun i _ hi => ⟨_, State.load_of_lt (show i < s.cfg.nsamp by omega)⟩
  unfold findRun
  rw [hl]
  dsimp only
  rw [hk]
  exact ⟨_, rfl⟩

/-! ### START_ENC and the iteration -/

/-- START_ENC, if it leads to a next state: nothing while BUSY, DimensionMismatch, or a fresh pass. -/
theorem startEnc_next {s t : State} (h : startEnc s = .next t) :
    (s.enc.status = .busy ∧ t = s) ∨
    (s.enc.status ≠ .busy ∧ s.enc.srcLen ≠ s.cfg.nsamp ∧
      t = { s with enc := s.enc.restart.raise .dimensionMismatch s.enc.srcLen }) ∨
    (s.enc.status ≠ .busy ∧ s.enc.srcLen = s.cfg.nsamp ∧ ¬(s.cfg.sharedStrm = true ∧ s.dec.status = .busy) ∧
      1 ≤ s.cfg.streamCap ∧
      t = { s with enc := { s.enc.restart with toUnitCtl := s.enc.restart.toUnitCtl.begin, outLen := 1 },
                   encStrm := [(0, Vocab.toolLine)], contents := s.contents.renewEncStrm }) := by
  unfold startEnc at h
  split at h
  · rename_i hb; injection h with h; exact .inl ⟨by simpa using hb, h.symm⟩
  · rename_i hb
    have hb' : s.enc.status ≠ .busy := by simpa using hb
    split at h
    · rename_i hn
      unfold raiseEnc at h
      injection h with h
      exact .inr (.inl ⟨hb', hn, h.symm⟩)
    · rename_i hn
      split at h
      · cases h
      · rename_i hs
        split at h
        · cases h
        · rename_i u hu
          have ⟨hc, hu⟩ := emit_eq_ok.mp hu
          injection h with h
          refine .inr (.inr ⟨hb', by simpa using hn, by simpa using hs, by simpa using hc, ?_⟩)
          rw [← h, hu]
          rfl

/-- What an iteration leads to, if it leads to a next state (R102). -/
theorem iterate_next {s t : State} (h : iterate s = .next t) :
    ∃ r, findRun s = .ok r ∧ s.enc.outLen + (runBytes s.cfg s.enc.x r).length ≤ s.cfg.streamCap ∧
      t = { s with
        encStrm := s.encStrm.writeList s.enc.outLen (runBytes s.cfg s.enc.x r),
        enc := Enc.afterRun s.cfg { s.enc with outLen := s.enc.outLen + (runBytes s.cfg s.enc.x r).length } r.len } := by
  unfold iterate at h
  cases hr : findRun s with
  | error f => rw [hr] at h; cases h
  | ok r =>
    rw [hr] at h
    dsimp only at h
    cases he : emit (runBytes s.cfg s.enc.x r) s with
    | error f => rw [he] at h; cases h
    | ok u =>
      rw [he] at h
      have ⟨hc, hu⟩ := emit_eq_ok.mp he
      injection h with h
      refine ⟨r, rfl, hc, ?_⟩
      rw [← h, hu]

/-- An iteration completes where its run is found and STRM has room for its bytes. -/
theorem iterate_of_findRun {s : State} {r : Run} (hr : findRun s = .ok r)
    (hc : s.enc.outLen + (runBytes s.cfg s.enc.x r).length ≤ s.cfg.streamCap) :
    iterate s = .next { s with
      encStrm := s.encStrm.writeList s.enc.outLen (runBytes s.cfg s.enc.x r),
      enc := Enc.afterRun s.cfg { s.enc with outLen := s.enc.outLen + (runBytes s.cfg s.enc.x r).length } r.len } := by
  have he := emit_eq_ok.mpr ⟨hc, rfl⟩
  unfold iterate
  rw [hr]
  dsimp only
  rw [he]

/-- What a turn of ENC leads to, if it leads to a next state. -/
theorem encTurn_next {s t : State} (h : encTurn s = .next t) :
    (s.enc.status ≠ .busy ∧ t = s) ∨ (s.enc.status = .busy ∧ iterate s = .next t) := by
  unfold encTurn at h
  split at h
  · rename_i hb; exact .inr ⟨by simpa using hb, h⟩
  · rename_i hb; injection h with h; exact .inl ⟨by simpa using hb, h.symm⟩

/-! ### Where a pass of ENC stands -/

/-- A column up to the width, in a row of the raster, is at most the end of the raster. -/
theorem row_le {x y w h : Nat} (hx : x ≤ w) (hy : y < h) : y * w + x ≤ w * h := by
  have := Nat.mul_le_mul_right w (show y + 1 ≤ h from hy)
  rw [Nat.add_mul] at this
  rw [Nat.mul_comm w h]
  omega

/-- A sample before the end of the raster is in one of its rows. -/
theorem row_lt_of_index {x y w h : Nat} (hp : y * w + x < w * h) : y < h := by
  by_contra hc
  have := Nat.mul_le_mul_right w (show h ≤ y by omega)
  rw [Nat.mul_comm w h] at hp
  omega

/-- The bytes of an iteration, at most nine a sample, and four more at the row's end. -/
theorem length_runBytes_le {c : Config} {x : Nat} {r : Run} (h : 1 ≤ r.len) :
    (runBytes c x r).length ≤ r.len * 9 + if x + r.len = c.w then 4 else 0 := by
  rw [length_runBytes]
  have := nchunks_le (l := r.len)
  omega

/-- All that the end of an iteration does to ENC's registers (R108, R109). -/
theorem Enc.afterRun_eq {c : Config} (hw : 1 ≤ c.w) (e : Enc) (r : Nat) (hx : e.x + r ≤ c.w)
    (hp : e.pos = e.y * c.w + e.x) :
    (e.afterRun c r).pos = (e.afterRun c r).y * c.w + (e.afterRun c r).x ∧ (e.afterRun c r).x < c.w ∧
    (e.afterRun c r).pos = e.pos + r ∧
    (e.afterRun c r).y = (if e.x + r = c.w then e.y + 1 else e.y) ∧
    (e.afterRun c r).x = (if e.x + r = c.w then 0 else e.x + r) ∧
    (e.afterRun c r).status = (if e.pos + r = c.nsamp then .done else e.status) ∧
    (e.afterRun c r).err = e.err ∧ (e.afterRun c r).errPos = e.errPos ∧
    (e.afterRun c r).srcLen = e.srcLen ∧ (e.afterRun c r).outLen = e.outLen := by
  unfold Enc.afterRun
  by_cases h : e.x + r = c.w
  · have : (e.y + 1) * c.w = e.y * c.w + c.w := by rw [Nat.add_mul]; simp
    simp only [h, if_true]
    split <;> simp [UnitCtl.finish] <;> omega
  · simp only [h, if_false]
    split <;> simp [UnitCtl.finish] <;> omega

end Sys2Proof.Machine
end

