-- ==== Sys2Proof/Laws/PerInstr.lean ====
section
/-! SUPPORT. A family over the syntax, one lemma for each opcode: the byte of a well-formed opcode is of the row of the
opcode table that the opcode stands for (spec/30_encoding.md R62), and of its class (R72). -/

namespace Sys2Proof.Laws.TableRow

/-- The byte of a well-formed opcode is covered by the opcode's own row, and its class is the opcode's class. -/
def Statement (i : Instr) : Prop :=
  i.wf = true → (opcodeTable[i.rowIndex]?.map (fun r => r.covers (encode i))) = some true ∧ classOf (encode i) = i.byteClass

theorem run (n : BitVec 5) : Statement (.run n) := by
  revert n
  unfold Statement
  decide +kernel

theorem advanceYPaint : Statement .advanceYPaint := by unfold Statement; decide

theorem advanceYSkip : Statement .advanceYSkip := by unfold Statement; decide

theorem toolNone : Statement .toolNone := by unfold Statement; decide

theorem toolLine : Statement .toolLine := by unfold Statement; decide

theorem colourEnd : Statement .colourEnd := by unfold Statement; decide

theorem targetXReset : Statement .targetXReset := by unfold Statement; decide

theorem data (g : BitVec 6) : Statement (.data g) := by
  revert g
  unfold Statement
  decide +kernel

theorem reserved20 (b : Byte) : Statement (.reserved20 b) := by
  revert b
  unfold Statement Instr.wf
  decide +kernel

theorem reserved42 (b : Byte) : Statement (.reserved42 b) := by
  revert b
  unfold Statement Instr.wf
  decide +kernel

theorem reserved44 (b : Byte) : Statement (.reserved44 b) := by
  revert b
  unfold Statement Instr.wf
  decide +kernel

theorem reserved48 (b : Byte) : Statement (.reserved48 b) := by
  revert b
  unfold Statement Instr.wf
  decide +kernel

theorem reserved50 (b : Byte) : Statement (.reserved50 b) := by
  revert b
  unfold Statement Instr.wf
  decide +kernel

theorem reserved60 (b : Byte) : Statement (.reserved60 b) := by
  revert b
  unfold Statement Instr.wf
  decide +kernel

theorem reserved82 : Statement .reserved82 := by unfold Statement; decide

theorem reserved85 : Statement .reserved85 := by unfold Statement; decide

theorem reserved86 (b : Byte) : Statement (.reserved86 b) := by
  revert b
  unfold Statement Instr.wf
  decide +kernel

theorem reserved88 (b : Byte) : Statement (.reserved88 b) := by
  revert b
  unfold Statement Instr.wf
  decide +kernel

theorem reserved90 (b : Byte) : Statement (.reserved90 b) := by
  revert b
  unfold Statement Instr.wf
  decide +kernel

theorem reservedA0 (b : Byte) : Statement (.reservedA0 b) := by
  revert b
  unfold Statement Instr.wf
  decide +kernel

end Sys2Proof.Laws.TableRow
end

