-- ==== Sys2Proof/Laws/Step.lean ====
section
/-! SUPPORT. What a turn of the host and a step can do, said once. -/

namespace Sys2Proof.Machine

/-- A host write of a register, if it leads to a next state. -/
theorem hostWriteReg_next {r : HostReg} {v : Word} {s t : State} (h : hostWriteReg r v s = .next t) :
    (r = .encCtrlStart ∧ v.getLsbD 0 = true ∧ startEnc s = .next t) ∨
    (r = .decCtrlStart ∧ v.getLsbD 0 = true ∧ startDec s = .next t) ∨
    (r = .encSrcLen ∧ s.enc.status ≠ .busy ∧ t = { s with enc := { s.enc with srcLen := v.toNat } }) ∨
    (r = .decInLen ∧ s.dec.status ≠ .busy ∧ v.toNat ≤ s.cfg.streamCap ∧
      t = { s with dec := { s.dec with inLen := v.toNat } }) ∨
    t = s := by
  cases r
  case encCtrlStart =>
    simp only [hostWriteReg] at h
    split at h
    · rename_i hv; exact .inl ⟨rfl, hv, h⟩
    · injection h with h; exact .inr (.inr (.inr (.inr h.symm)))
  case decCtrlStart =>
    simp only [hostWriteReg] at h
    split at h
    · rename_i hv; exact .inr (.inl ⟨rfl, hv, h⟩)
    · injection h with h; exact .inr (.inr (.inr (.inr h.symm)))
  case encSrcLen =>
    simp only [hostWriteReg, writeSrcLen] at h
    split at h
    · injection h with h; exact .inr (.inr (.inr (.inr h.symm)))
    · rename_i hb; injection h with h; exact .inr (.inr (.inl ⟨rfl, by simpa using hb, h.symm⟩))
  case decInLen =>
    simp only [hostWriteReg, writeInLen] at h
    split at h
    · injection h with h; exact .inr (.inr (.inr (.inr h.symm)))
    · rename_i hb
      split at h
      · rename_i hv; injection h with h; exact .inr (.inr (.inr (.inl ⟨rfl, by simpa using hb, hv, h.symm⟩)))
      · injection h with h; exact .inr (.inr (.inr (.inr h.symm)))
  all_goals cases h

/-- No BUSY unit owns this memory (R55). -/
theorem State.owned_eq_false {s : State} {sp : Space} :
    s.owned sp = false ↔
      (sp = .src ∨ sp = .encStrm ∨ (sp = .decStrm ∧ s.cfg.sharedStrm = true) → s.enc.status ≠ .busy) ∧
      (sp = .decStrm ∨ sp = .grid ∨ (sp = .encStrm ∧ s.cfg.sharedStrm = true) → s.dec.status ≠ .busy) := by
  cases sp <;> simp [State.owned, State.encBusy, State.decBusy, and_comm]

/-- All that a host read of a register can do. -/
theorem hostReadReg_eq (r : HostReg) (s : State) :
    hostTurn (.readReg r) s =
      if s.readable r then .next { s with hostData := s.regValue r } else .refused (.busyUnitRegister r) := rfl

/-- The register a bus address reaches is one that the map lists there. -/
theorem mem_of_regAt {c : Config} {a : Nat} {r : HostReg} (h : regAt c a = some r) : (a, r) ∈ c.regMap := by
  unfold regAt at h
  split at h
  · rename_i e he
    obtain rfl : e.2 = r := by simpa using h
    have ha : e.1 = a := by simpa using List.find?_some he
    exact ha ▸ List.mem_of_find?_eq_some he
  · cases h

/-- A bus address reaches no register only where the map lists none. -/
theorem not_mem_of_regAt {c : Config} {a : Nat} (h : regAt c a = none) (r : HostReg) : (a, r) ∉ c.regMap := by
  unfold regAt at h
  split at h
  · cases h
  · rename_i hn
    intro hm
    simpa using List.find?_eq_none.mp hn (a, r) hm

/-- What a turn of the host leads to, if it leads to a next state. -/
theorem hostTurn_next {c : HostCmd} {s t : State} (h : hostTurn c s = .next t) :
    (∃ r v, (c = .writeReg r v ∨ ∃ a, c = .busWrite a v ∧ regAt s.cfg a = some r) ∧ hostWriteReg r v s = .next t) ∨
    (∃ d, t = { s with hostData := d }) ∨
    (∃ sp a b, c = .writeMem sp a b ∧ s.owned sp = false ∧ a < sp.size s.cfg ∧
      t = s.setMem sp ((s.memOf sp).write a b)) ∨
    (c = .reset ∧ t = hardwareReset s) := by
  have hread : ∀ r, hostReadReg r s = .next t → ∃ d, t = { s with hostData := d } := by
    intro r hr
    unfold hostReadReg at hr
    split at hr
    · injection hr with hr; exact ⟨_, hr.symm⟩
    · cases hr
  cases c with
  | writeReg r v => exact .inl ⟨r, v, .inl rfl, h⟩
  | readReg r => exact .inr (.inl (hread r h))
  | busWrite a v =>
    simp only [hostTurn] at h
    cases hr : regAt s.cfg a with
    | none => rw [hr] at h; cases h
    | some r => rw [hr] at h; exact .inl ⟨r, v, .inr ⟨a, rfl, hr⟩, h⟩
  | busRead a =>
    simp only [hostTurn] at h
    cases hr : regAt s.cfg a with
    | none => rw [hr] at h; cases h
    | some r => rw [hr] at h; exact .inr (.inl (hread r h))
  | writeMem sp a b =>
    simp only [hostTurn, hostWriteMem, State.store] at h
    split at h
    · cases h
    · rename_i ho
      split at h
      · cases h
      · rename_i u hu
        split at hu
        · rename_i ha
          injection hu with hu
          injection h with h
          exact .inr (.inr (.inl ⟨sp, a, b, rfl, by simpa using ho, ha, by rw [← h, ← hu]⟩))
        · cases hu
  | readMem sp a =>
    simp only [hostTurn, hostReadMem] at h
    split at h
    · cases h
    · split at h
      · cases h
      · injection h with h; exact .inr (.inl ⟨_, h.symm⟩)
  | reset =>
    simp only [hostTurn] at h
    injection h with h
    exact .inr (.inr (.inr ⟨rfl, h.symm⟩))

/-- Whose turn a step was, and on which state it moved: `s` itself, or `s` with the turn taken off the list. -/
theorem step_eq (s : State) :
    (s.turns = [] ∧ s.dec.status = .busy ∧ step s = decTurn s) ∨
    (s.turns = [] ∧ s.dec.status ≠ .busy ∧ step s = encTurn s) ∨
    (∃ rest, s.turns = .enc :: rest ∧ step s = encTurn { s with turns := rest }) ∨
    (∃ rest, s.turns = .dec :: rest ∧ step s = decTurn { s with turns := rest }) ∨
    (∃ c rest, s.turns = .host c :: rest ∧ step s = hostTurn c { s with turns := rest }) := by
  unfold step
  cases ht : s.turns with
  | nil =>
    dsimp only
    split
    · rename_i hb; exact .inl ⟨rfl, by simpa using hb, rfl⟩
    · rename_i hb; exact .inr (.inl ⟨rfl, by simpa using hb, rfl⟩)
  | cons u rest =>
    cases u with
    | enc => exact .inr (.inr (.inl ⟨rest, rfl, rfl⟩))
    | dec => exact .inr (.inr (.inr (.inl ⟨rest, rfl, rfl⟩)))
    | host c => exact .inr (.inr (.inr (.inr ⟨c, rest, rfl, rfl⟩)))

/-- The invariant says nothing of the turns to come. -/
theorem Inv.of_turns {s : State} {l : List Turn} (h : Inv s) : Inv { s with turns := l } := h

/-- The invariant says nothing of the host's last read. -/
theorem Inv.of_hostData {s : State} {d : Word} (h : Inv s) : Inv { s with hostData := d } := h

/-- No step. -/
theorem runSteps_zero (s : State) : runSteps 0 s = .next s := rfl

/-- One more step at the front of a run. -/
theorem runSteps_succ {k : Nat} {s t : State} (h : step s = .next t) : runSteps (k + 1) s = runSteps k t := by
  have h' : core.step s = .next t := h
  simp only [runSteps, Host.Core.run, h']
  rfl

/-- Runs compose. -/
theorem runSteps_add {j k : Nat} {s t : State} (h : runSteps j s = .next t) : runSteps (j + k) s = runSteps k t := by
  induction j generalizing s with
  | zero => rw [runSteps_zero] at h; injection h with h; rw [h, Nat.zero_add]
  | succ j ih =>
    rw [Nat.add_right_comm]
    cases hs : step s with
    | next u => rw [runSteps_succ hs] at h ⊢; exact ih h
    | fault f =>
      have h' : core.step s = .fault f := hs
      simp only [runSteps, Host.Core.run, h'] at h
      cases h
    | refused r =>
      have h' : core.step s = .refused r := hs
      simp only [runSteps, Host.Core.run, h'] at h
      cases h

/-- A run that goes on, taken apart at its first step. -/
theorem runSteps_succ_next {k : Nat} {s t : State} (h : runSteps (k + 1) s = .next t) :
    ∃ u, step s = .next u ∧ runSteps k u = .next t := by
  cases hs : step s with
  | next u => rw [runSteps_succ hs] at h; exact ⟨u, rfl, h⟩
  | fault f =>
    have h' : core.step s = .fault f := hs
    simp only [runSteps, Host.Core.run, h'] at h
    cases h
  | refused r =>
    have h' : core.step s = .refused r := hs
    simp only [runSteps, Host.Core.run, h'] at h
    cases h

/-- What a step leads to, if it leads to a next state: a turn of ENC, of DEC or of the host, on the state with the turn
taken off the list. -/
theorem step_next {s t : State} (h : step s = .next t) :
    (∃ l, (s.turns = [] ∧ l = [] ∨ s.turns = .enc :: l) ∧ encTurn { s with turns := l } = .next t) ∨
    (∃ l, (s.turns = [] ∧ l = [] ∨ s.turns = .dec :: l) ∧ decTurn { s with turns := l } = .next t) ∨
    (∃ c l, s.turns = .host c :: l ∧ hostTurn c { s with turns := l } = .next t) := by
  have hnil : s.turns = [] → ({ s with turns := [] } : State) = s := fun ht => by rw [← ht]
  rcases step_eq s with ⟨ht, _, e⟩ | ⟨ht, _, e⟩ | ⟨l, ht, e⟩ | ⟨l, ht, e⟩ | ⟨c, l, ht, e⟩ <;> rw [e] at h
  · exact .inr (.inl ⟨[], .inl ⟨ht, rfl⟩, by rw [hnil ht]; exact h⟩)
  · exact .inl ⟨[], .inl ⟨ht, rfl⟩, by rw [hnil ht]; exact h⟩
  · exact .inl ⟨l, .inr ht, h⟩
  · exact .inr (.inl ⟨l, .inr ht, h⟩)
  · exact .inr (.inr ⟨c, l, ht, h⟩)

/-- A step with no turn pending, while DEC is BUSY. -/
theorem step_of_dec_busy {s : State} (ht : s.turns = []) (hb : s.dec.status = .busy) : step s = decTurn s := by
  simp [step, ht, hb]

/-- A step with no turn pending, while DEC is not BUSY. -/
theorem step_of_dec_not_busy {s : State} (ht : s.turns = []) (hb : s.dec.status ≠ .busy) : step s = encTurn s := by
  simp [step, ht, State.decBusy, hb]

end Sys2Proof.Machine
end

