-- ==== Sys2Proof/Tests/Slice0.lean ====
section
/-! SUPPORT. Tests with results taken from the spec (the encodings of spec/30_encoding.md, the vectors of
spec/95_test_vectors.md, the examples of the rules), ill-formed terms that the checks refuse, and for each statement with
hypotheses a witness: a concrete state and operands that meet them together. -/

open Sys2Proof Sys2Proof.Machine

namespace Sys2Proof.Tests

/-! ### Small states -/

/-- A raster of two samples and one row, with room for its longest stream (23 bytes) and more. -/
def twoByOne : Config := { w := 2, h := 1, streamCap := 64, sharedStrm := false, regMap := [(8, .decCtrlStart)] }

/-- The two STRM are one memory. -/
def oneStrm : Config := { twoByOne with sharedStrm := true }

/-- Bytes from index 0 up. -/
def memOfBytes (bs : List Byte) : Memory := Memory.writeList [] 0 bs

/-- DEC BUSY in a phase, at an index of a stream, with GRID zero-filled. -/
def decAt (ph : Phase) (p : Nat) (bs : List Byte) : State :=
  { State.reset with
    cfg := twoByOne, decStrm := memOfBytes bs, grid := Memory.filled 0 0 2,
    dec := { Dec.reset with status := .busy, phase := ph, inLen := bs.length, p := p } }

/-- A block at rest with the image 05 07 in SRC and its length written. -/
def encIdle : State :=
  { State.reset with cfg := twoByOne, src := memOfBytes [0x05, 0x07], enc := { Enc.reset with srcLen := 2 } }

/-- The state an outcome leads to. -/
def after : Out → State
  | .next t => t
  | .fault _ => State.reset
  | .refused _ => State.reset

/-- The stream of the image 05 07 on the 2 by 1 raster, by R112. -/
def streamOf57 : List Byte :=
  [0x81, 0xC0, 0xC5, 0xC1, 0xD0, 0xD7, 0xFF, 0x83, 0x01, 0x40] ++
  [0xC0, 0xC7, 0xC1, 0xF0, 0xDF, 0xFF, 0x83, 0x01, 0x40, 0x80, 0x84, 0x41, 0x81]

/-- ENC just started on the image 05 07. -/
def encStarted : State := after (startEnc encIdle)

/-- DEC just started on the stream of 05 07. -/
def decStarted : State := decAt .scan 0 streamOf57

/-- The rows of that stream. -/
def rows57 : List (List Run) := [[{ sample := 0x05, len := 1 }, { sample := 0x07, len := 1 }]]

theorem inv_encStarted : Inv encStarted := ⟨by decide, by decide, by decide, by decide, by decide⟩
theorem inv_decStarted : Inv decStarted := ⟨by decide, by decide, by decide, by decide, by decide⟩

/-! ### The checks refuse ill-formed terms -/

/-- A byte beside the range of its reserved row, below or above it (R62). -/
theorem test_reserved_rows_refuse :
    (Instr.reserved20 0x1F).wf = false ∧ (Instr.reserved20 0x40).wf = false ∧
    (Instr.reserved42 0x41).wf = false ∧ (Instr.reserved42 0x44).wf = false ∧
    (Instr.reserved44 0x43).wf = false ∧ (Instr.reserved44 0x48).wf = false ∧
    (Instr.reserved48 0x47).wf = false ∧ (Instr.reserved48 0x50).wf = false ∧
    (Instr.reserved50 0x4F).wf = false ∧ (Instr.reserved50 0x60).wf = false ∧
    (Instr.reserved60 0x5F).wf = false ∧ (Instr.reserved60 0x80).wf = false ∧
    (Instr.reserved86 0x85).wf = false ∧ (Instr.reserved86 0x88).wf = false ∧
    (Instr.reserved88 0x87).wf = false ∧ (Instr.reserved88 0x90).wf = false ∧
    (Instr.reserved90 0x8F).wf = false ∧ (Instr.reserved90 0xA0).wf = false ∧
    (Instr.reservedA0 0x9F).wf = false ∧ (Instr.reservedA0 0xC0).wf = false := by decide

/-- One configuration outside each bound of R5, D3 and D5; the hardware's own is inside. -/
theorem test_config_bounds :
    ¬{ twoByOne with w := 0 }.wf ∧ ¬{ twoByOne with w := 256, streamCap := 5000 }.wf ∧
    ¬{ twoByOne with h := 0 }.wf ∧ ¬{ twoByOne with h := 256, streamCap := 9000 }.wf ∧
    ¬{ twoByOne with streamCap := 22 }.wf ∧ ¬{ twoByOne with streamCap := 4294967296 }.wf ∧
    { twoByOne with streamCap := 23 }.wf ∧ Config.hw.wf := by decide

/-- Rows that break one condition of R112 each: a length of 0, a wrong sum, equal neighbours, a wrong number of rows. -/
theorem test_rows_refuse :
    rowWf twoByOne [{ sample := 5, len := 0 }, { sample := 7, len := 2 }] = false ∧
    rowWf twoByOne [{ sample := 5, len := 1 }] = false ∧
    rowWf twoByOne [{ sample := 5, len := 1 }, { sample := 5, len := 1 }] = false ∧
    rowsWf twoByOne [] = false ∧ rowsWf twoByOne rows57 = true := by decide

/-! ### Words written bit by bit from the formats of R61 and the values of R62 -/

theorem test_decode_run : decodeByte 0b00010101#8 = .run 21 ∧ encode (.run 31) = 0b00011111#8 := by decide
theorem test_decode_advanceYPaint :
    decodeByte 0b01000000#8 = .advanceYPaint ∧ encode .advanceYPaint = 0b01000000#8 := by decide
theorem test_decode_advanceYSkip :
    decodeByte 0b01000001#8 = .advanceYSkip ∧ encode .advanceYSkip = 0b01000001#8 := by decide
theorem test_decode_toolNone : decodeByte 0b10000000#8 = .toolNone ∧ encode .toolNone = 0b10000000#8 := by decide
theorem test_decode_toolLine : decodeByte 0b10000001#8 = .toolLine ∧ encode .toolLine = 0b10000001#8 := by decide
theorem test_decode_colourEnd : decodeByte 0b10000011#8 = .colourEnd ∧ encode .colourEnd = 0b10000011#8 := by decide
theorem test_decode_targetXReset :
    decodeByte 0b10000100#8 = .targetXReset ∧ encode .targetXReset = 0b10000100#8 := by decide
theorem test_decode_data : decodeByte 0b11100101#8 = .data 0x25 ∧ encode (.data 3) = 0b11000011#8 := by decide
/-- Both ends of each reserved row. -/
theorem test_decode_reserved :
    decodeByte 0b00100000#8 = .reserved20 0x20 ∧ decodeByte 0b00111111#8 = .reserved20 0x3F ∧
    decodeByte 0b01000010#8 = .reserved42 0x42 ∧ decodeByte 0b01000011#8 = .reserved42 0x43 ∧
    decodeByte 0b01000100#8 = .reserved44 0x44 ∧ decodeByte 0b01000111#8 = .reserved44 0x47 ∧
    decodeByte 0b01001000#8 = .reserved48 0x48 ∧ decodeByte 0b01001111#8 = .reserved48 0x4F ∧
    decodeByte 0b01010000#8 = .reserved50 0x50 ∧ decodeByte 0b01011111#8 = .reserved50 0x5F ∧
    decodeByte 0b01100000#8 = .reserved60 0x60 ∧ decodeByte 0b01111111#8 = .reserved60 0x7F ∧
    decodeByte 0b10000010#8 = .reserved82 ∧ decodeByte 0b10000101#8 = .reserved85 ∧
    decodeByte 0b10000110#8 = .reserved86 0x86 ∧ decodeByte 0b10000111#8 = .reserved86 0x87 ∧
    decodeByte 0b10001000#8 = .reserved88 0x88 ∧ decodeByte 0b10001111#8 = .reserved88 0x8F ∧
    decodeByte 0b10010000#8 = .reserved90 0x90 ∧ decodeByte 0b10011111#8 = .reserved90 0x9F ∧
    decodeByte 0b10100000#8 = .reservedA0 0xA0 ∧ decodeByte 0b10111111#8 = .reservedA0 0xBF := by decide
theorem test_decode_rejects_no_bytes : decode [] = .error .endOfBytes := rfl
theorem test_decode_leaves_the_rest : decode [0x81, 0x40] = .ok (.toolLine, [0x40]) := rfl
theorem test_decodeTableWord : decodeTableWord 8 0x83 = some .colourEnd ∧ decodeTableWord 8 0x1F = some (.run 31) := by
  decide

/-! ### Operands: the vectors of 95_test_vectors.md 2.1 and 2.3 -/

theorem test_token : token 0xA5 = 0xA5A5A5FF := by decide
theorem test_pack :
    pack 0x00 = [0xC0, 0xC0, 0xC0, 0xC0, 0xC3, 0xFF, 0x83] ∧
    pack 0xA5 = [0xC2, 0xE5, 0xE9, 0xDA, 0xD7, 0xFF, 0x83] := by decide
theorem test_chunks :
    chunks 0 = [] ∧ chunks 31 = [0x1F] ∧ chunks 32 = [0x1F, 0x01] ∧
    chunks 200 = [0x1F, 0x1F, 0x1F, 0x1F, 0x1F, 0x1F, 0x0E] := by decide

/-! ### One step of an opcode: the table of 95_test_vectors.md 2.5 and the rules' examples -/

theorem test_scan_trigger :
    (after (exec .toolLine (decAt .scan 0 [0x81, 0xC2]))).dec.phase = .cSkip ∧
    (after (exec .toolLine (decAt .scan 0 [0x81]))).dec.phase = .scan := by decide
theorem test_scan_lookahead :
    (after (exec .advanceYPaint (decAt .scan 0 [0x40, 0x80]))).dec.phase = .scan ∧
    (after (exec .advanceYPaint (decAt .scan 0 [0x40, 0xC3]))).dec.phase = .cSkip ∧
    (after (exec .advanceYPaint (decAt .scan 0 [0x40]))).dec.phase = .scan := by decide
theorem test_scan_passes_reserved : (after (exec .reserved82 (decAt .scan 0 [0x82, 0x20, 0x7F]))).dec.p = 1 := by decide
/-- R87: `b = 0xE5` seeds 1; COLOUR_END is a seed here, of 3. -/
theorem test_seed :
    (after (exec (.data 0x25) (decAt .cSeed 0 [0xE5]))).dec.acc = 1 ∧
    (after (exec .colourEnd (decAt .cSeed 0 [0x83]))).dec.acc = 3 := by decide
/-- R88: `acc = 1`, `b = 0xE9` gives 0x69; bits above 31 are lost (2.2, last row). -/
theorem test_accumulate :
    accumulate 1 0xE9 = 0x69 ∧ accumulate 0xFFFF295A 0xC1 = 0xFFCA5681 ∧
    (after (exec .targetXReset (decAt .cAcc 0 [0x84]))).dec.acc = 4 := by decide
/-- R89: `acc = 0x01A5A5FF` gives the sample 0xA5. -/
theorem test_colour_end : sampleOf 0x01A5A5FF = 0xA5 ∧ sampleOf 3 = 0 := by decide
theorem test_run_adds : (after (exec (.run 31) (decAt .runLen 0 [0x1F]))).dec.runlen = 31 := by decide
/-- R145, D14: any other byte in RUNLEN raises fault 2 at its own index. -/
theorem test_run_malformed :
    (after (exec (.data 0) (decAt .runLen 3 [0x81, 0xC0, 0x83, 0xC0]))).dec.err = .malformedRunSequence ∧
    (after (exec (.data 0) (decAt .runLen 3 [0x81, 0xC0, 0x83, 0xC0]))).dec.errPos = 3 := by decide

/-- R147's example: `x = 195`, `y = 7`, `L = 5`, sample 0x10, on the 200 by 200 raster. -/
def lastFive : State :=
  { decAt .runLen 0 [0x40] with
    cfg := Config.hw, grid := [],
    dec := { (decAt .runLen 0 [0x40]).dec with x := 195, y := 7, runlen := 5, colour := 0x10 } }

theorem test_paint :
    (after (exec .advanceYPaint lastFive)).grid =
      [(1595, 0x10), (1596, 0x10), (1597, 0x10), (1598, 0x10), (1599, 0x10)] ∧
    (after (exec .advanceYPaint lastFive)).dec.x = 0 ∧ (after (exec .advanceYPaint lastFive)).dec.y = 8 ∧
    (after (exec .advanceYPaint lastFive)).dec.p = 0 := by decide
theorem test_skip_paints_too : after (exec .advanceYSkip lastFive) = after (exec .advanceYPaint lastFive) := by decide

/-- 95_test_vectors.md 2.7: a run of 5 on a row of 4 raises OutOfBoundsWrite and paints nothing. -/
theorem test_out_of_bounds :
    (after (exec .advanceYPaint { lastFive with cfg := { twoByOne with w := 4, h := 2 } })).dec.err = .outOfBoundsWrite ∧
    (after (exec .advanceYPaint { lastFive with cfg := { twoByOne with w := 4, h := 2 } })).grid = [] := by decide

theorem test_not_enabled : exec .toolLine State.reset = .fault .noEnabledStep := rfl

/-! ### The other turns -/

/-- R101's two examples, and what STRM holds after START_ENC. -/
theorem test_startEnc :
    encStarted.enc.status = .busy ∧ encStarted.encStrm = [(0, 0x81)] ∧ encStarted.enc.outLen = 1 ∧
    (after (startEnc { State.reset with enc := { Enc.reset with srcLen := 39999 } })).enc.err = .dimensionMismatch ∧
    (after (startEnc { State.reset with enc := { Enc.reset with srcLen := 39999 } })).enc.errPos = 39999 := by decide

/-- 95_test_vectors.md 2.4, `x = 199`: the last sample of a row is a run of 1, and the wrap follows it. -/
def lastColumn : State :=
  { State.reset with
    src := [(199, 0x04), (200, 0x04)],
    enc := { Enc.reset with status := .busy, srcLen := 40000, pos := 199, x := 199 } }

theorem test_iterate :
    (after (iterate lastColumn)).encStrm = memOfBytes
      [0xC0, 0xC4, 0xC1, 0xC0, 0xD3, 0xFF, 0x83, 0x01, 0x40, 0x80, 0x84, 0x41, 0x81] ∧
    (after (iterate lastColumn)).enc.x = 0 ∧ (after (iterate lastColumn)).enc.y = 1 ∧
    (after (iterate lastColumn)).enc.pos = 200 := by decide

/-- The host issues START_DEC by name and by the bus address its register map gives it (R28, D6). -/
theorem test_host_start :
    (after (hostTurn (.writeReg .decCtrlStart 1) encIdle)).dec.status = .busy ∧
    (after (hostTurn (.busWrite 8 1) encIdle)).dec.status = .busy ∧
    (after (hostTurn (.writeReg .decCtrlStart 0) encIdle)).dec.status = .idle := by decide
theorem test_host_read_only : hostTurn (.writeReg .decP 3) encIdle = .refused (.readOnlyRegister .decP) := rfl
theorem test_host_unmapped : hostTurn (.busRead 4) encIdle = .refused (.unmappedBusAddress 4) := rfl
theorem test_host_above_stream_cap : hostTurn (.writeReg .decInLen 65) encIdle = .next encIdle := rfl
theorem test_unwritten_byte :
    hostTurn (.readMem .src 9) State.reset =
      .next { State.reset with hostData := (Config.freeByte 0 0 9).zeroExtend 32 } := rfl
theorem test_no_such_address :
    hostTurn (.readMem .grid 40000) State.reset = .fault (.noSuchAddress .grid 40000) := rfl

/-- The first step after reset with an opcode placed runs that opcode. -/
theorem test_withFetchWord :
    step (State.reset.withFetchWord 8 0x41) = exec .advanceYSkip (State.reset.withFetchWord 8 0x41) ∧
    (after (step (State.reset.withFetchWord 8 0x41))).dec.p = 1 := ⟨rfl, by decide⟩

/-- The syntax of R74 and R75: the lines of program P4, and its bytes. -/
theorem test_assembler :
    assembleText { twoByOne with w := 4, h := 2 } "TOOL_LINE; PAINT 5,2; PAINT 7,2; WRAP # row 0\nROW 0x07".toList =
      some ([0x81, 0xC0, 0xC5, 0xC1, 0xD0, 0xD7, 0xFF, 0x83, 0x02, 0x40] ++
        [0xC0, 0xC7, 0xC1, 0xF0, 0xDF, 0xFF, 0x83, 0x02, 0x40, 0x80, 0x84, 0x41, 0x81] ++
        [0xC0, 0xC7, 0xC1, 0xF0, 0xDF, 0xFF, 0x83, 0x04, 0x40, 0x80, 0x84, 0x41, 0x81]) := by decide +kernel
theorem test_assembler_refuses :
    assembleText twoByOne "RUN 32".toList = none ∧ assembleText twoByOne "DATA 64".toList = none ∧
    assembleText twoByOne "BYTE 256".toList = none ∧ assembleText twoByOne "JUMP".toList = none := by decide +kernel

/-! ### Witnesses: states and operands that meet the hypotheses of the statements -/

theorem witness_HardwareResetFromAnyState : ({ decStarted with turns := [.host .reset, .dec] }).turns = .host .reset :: [.dec] :=
  rfl
theorem witness_DecodeOfEncodeIsTheOpcode :
    (Instr.reserved20 0x3F).wf = true ∧ (Instr.reserved42 0x42).wf = true ∧ (Instr.reservedA0 0xBF).wf = true := by decide
theorem witness_StepRunsTheDecodedOpcode :
    decStarted.dec.status = .busy ∧ decStarted.dec.p ≠ decStarted.dec.inLen ∧ fetchByte decStarted = .ok 0x81 ∧
    decode [0x81] = .ok (.toolLine, []) ∧ decStarted.turns = [] ∧
    ({ decStarted with turns := [.dec] }).turns = .dec :: [] := ⟨by decide, by decide, rfl, rfl, rfl, rfl⟩
/-- The end of the stream in each phase, in states that meet the invariant. -/
theorem witness_EndOfStreamByPhase :
    (∀ ph, ph = Phase.scan ∨ ph = .cSeed ∨ ph = .cAcc ∨ ph = .runLen →
      DecIn (decAt ph 1 [0x81]) ph ∧ (decAt ph 1 [0x81]).dec.p = (decAt ph 1 [0x81]).dec.inLen) ∧
    Inv (decAt .scan 1 [0x81]) := by
  refine ⟨?_, ⟨by decide, by decide, by decide, by decide, by decide⟩⟩
  rintro ph (rfl | rfl | rfl | rfl) <;> decide
theorem witness_UnitsNotBusyDoNothing : State.reset.enc.status ≠ .busy ∧ State.reset.dec.status ≠ .busy := by decide
theorem witness_NonTriggersArePassedOver :
    DecIn (decAt .scan 0 [0x80]) .scan ∧ Instr.toolNone ≠ .toolLine ∧ Instr.toolNone ≠ .advanceYPaint := by decide
/-- TOOL_LINE with a byte after it, and as the last byte. -/
theorem witness_ToolLineTriggersIfAByteFollows :
    DecIn (decAt .scan 0 [0x81, 0xC0]) .scan ∧ DecIn (decAt .scan 0 [0x81]) .scan := by decide
/-- ADVANCE_Y_PAINT as the last byte, before TOOL_NONE, and before another byte. -/
theorem witness_AdvancePaintTriggersByLookahead :
    (DecIn (decAt .scan 0 [0x40]) .scan ∧ (decAt .scan 0 [0x40]).dec.inLen ≤ (decAt .scan 0 [0x40]).dec.p + 1) ∧
    (DecIn (decAt .scan 0 [0x40, 0x80]) .scan ∧ (decAt .scan 0 [0x40, 0x80]).load .decStrm 1 = .ok 0x80) ∧
    (DecIn (decAt .scan 0 [0x40, 0xC3]) .scan ∧ (decAt .scan 0 [0x40, 0xC3]).load .decStrm 1 = .ok 0xC3) :=
  ⟨by decide, ⟨by decide, rfl⟩, by decide, rfl⟩
/-- The end, a trigger of each kind, and the three ways to be passed over. -/
theorem witness_ScanStepFollowsTheTriggerRule :
    (DecIn (decAt .scan 1 [0x81]) .scan ∧ (decAt .scan 1 [0x81]).dec.p = (decAt .scan 1 [0x81]).dec.inLen) ∧
    (fetchByte (decAt .scan 0 [0x81, 0xC0]) = .ok 0x81 ∧ 0 + 1 < (decAt .scan 0 [0x81, 0xC0]).dec.inLen) ∧
    (fetchByte (decAt .scan 0 [0x40, 0xC0]) = .ok 0x40 ∧ (decAt .scan 0 [0x40, 0xC0]).load .decStrm 1 = .ok 0xC0) ∧
    (fetchByte (decAt .scan 0 [0x81]) = .ok 0x81 ∧ (decAt .scan 0 [0x81]).dec.inLen ≤ 0 + 1) ∧
    (fetchByte (decAt .scan 0 [0x40, 0x80]) = .ok 0x40 ∧ (decAt .scan 0 [0x40, 0x80]).load .decStrm 1 = .ok 0x80) ∧
    (fetchByte (decAt .scan 0 [0x84, 0x80]) = .ok 0x84 ∧ (0x84 : Byte) ≠ 0x81 ∧ (0x84 : Byte) ≠ 0x40) :=
  ⟨by decide, ⟨rfl, by decide⟩, ⟨rfl, rfl⟩, ⟨rfl, by decide⟩, ⟨rfl, rfl⟩, rfl, by decide⟩
theorem witness_EveryOpcodeIsSkippedAfterATrigger : DecIn (decAt .cSkip 0 [0x83]) .cSkip := by decide
theorem witness_EveryOpcodeSeedsTheAccumulator : DecIn (decAt .cSeed 0 [0x83]) .cSeed := by decide
theorem witness_EveryOtherOpcodeIsAccumulated : DecIn (decAt .cAcc 0 [0x40]) .cAcc ∧ Instr.advanceYPaint ≠ .colourEnd := by
  decide
theorem witness_ColourEndTakesTheSample : DecIn (decAt .cAcc 0 [0x83]) .cAcc := by decide
/-- A byte, COLOUR_END itself, and the end of the stream. -/
theorem witness_SeedStepFollowsItsRule :
    (DecIn (decAt .cSeed 0 [0x83]) .cSeed ∧ fetchByte (decAt .cSeed 0 [0x83]) = .ok 0x83) ∧
    (DecIn (decAt .cSeed 1 [0x83]) .cSeed ∧ (decAt .cSeed 1 [0x83]).dec.p = (decAt .cSeed 1 [0x83]).dec.inLen) :=
  ⟨⟨by decide, rfl⟩, by decide⟩
theorem witness_AccumulateStepFollowsItsRules :
    (DecIn (decAt .cAcc 0 [0xFF]) .cAcc ∧ fetchByte (decAt .cAcc 0 [0xFF]) = .ok 0xFF) ∧
    fetchByte (decAt .cAcc 0 [0x83]) = .ok 0x83 ∧
    (decAt .cAcc 1 [0x83]).dec.p = (decAt .cAcc 1 [0x83]).dec.inLen := ⟨⟨by decide, rfl⟩, rfl, by decide⟩
theorem witness_RunAddsItsChunk : DecIn (decAt .runLen 0 [0x00]) .runLen := by decide
/-- A run that ends at the row's end, and one of length 0 with every row complete. -/
theorem witness_TerminatorsPaintTheRun :
    (DecIn lastFive .runLen ∧ lastFive.dec.x + lastFive.dec.runlen = lastFive.cfg.w ∧
      ¬(1 ≤ lastFive.dec.runlen ∧
        (lastFive.cfg.w < lastFive.dec.x + lastFive.dec.runlen ∨ lastFive.cfg.h ≤ lastFive.dec.y))) ∧
    (let s := { lastFive with dec := { lastFive.dec with x := 0, y := 200, runlen := 0 } }
     DecIn s .runLen ∧ ¬(1 ≤ s.dec.runlen ∧ (s.cfg.w < s.dec.x + s.dec.runlen ∨ s.cfg.h ≤ s.dec.y))) := by decide
/-- One cell too many; a run with every row complete; a run of length 0. -/
theorem witness_TerminatorsCheckBounds :
    (let s := { lastFive with dec := { lastFive.dec with runlen := 6 } }
     DecIn s .runLen ∧ 1 ≤ s.dec.runlen ∧ s.cfg.w < s.dec.x + s.dec.runlen) ∧
    (let s := { lastFive with dec := { lastFive.dec with x := 0, y := 200, runlen := 1 } }
     DecIn s .runLen ∧ 1 ≤ s.dec.runlen ∧ s.cfg.h ≤ s.dec.y) ∧
    (let s := { lastFive with dec := { lastFive.dec with x := 0, y := 200, runlen := 0 } }
     DecIn s .runLen ∧ s.dec.runlen = 0 ∧ s.dec.x < s.cfg.w) := by decide
theorem witness_OtherOpcodesFaultInARunLength :
    DecIn (decAt .runLen 0 [0x20]) .runLen ∧ (∀ n, Instr.reserved20 0x20 ≠ .run n) ∧
    Instr.reserved20 0x20 ≠ .advanceYPaint ∧ Instr.reserved20 0x20 ≠ .advanceYSkip :=
  ⟨by decide, nofun, nofun, nofun⟩
theorem witness_OpcodesLeaveEncAndStreams : exec .advanceYPaint lastFive = .next (after (exec .advanceYPaint lastFive)) :=
  rfl
/-- A next state in each phase, so that every clause's premise holds for one of them. -/
theorem witness_OpcodesChangeOnlyTheirRegisters :
    exec .toolNone (decAt .scan 0 [0x80]) = .next (after (exec .toolNone (decAt .scan 0 [0x80]))) ∧
    exec (.run 1) (decAt .runLen 0 [0x01]) = .next (after (exec (.run 1) (decAt .runLen 0 [0x01]))) := ⟨rfl, rfl⟩
/-- The cell below the run and the first one above it; and a paint that the bounds check stops. -/
theorem witness_OpcodesPaintOnlyTheRun :
    exec .advanceYSkip lastFive = .next (after (exec .advanceYSkip lastFive)) ∧
    lastFive.dec.cursorIndex lastFive.cfg = 1595 ∧ 1594 < 1595 ∧ 1595 + lastFive.dec.runlen ≤ 1600 ∧
    Dec.outOfBounds lastFive.cfg { lastFive.dec with runlen := 6 } = true := ⟨rfl, by decide, by decide, by decide, by decide⟩
theorem witness_UnitsDoNotInterfere :
    decTurn decStarted = .next (after (decTurn decStarted)) ∧ encTurn encStarted = .next (after (encTurn encStarted)) :=
  ⟨rfl, rfl⟩

/-- DEC and ENC both in FAULT. -/
def bothFault : State :=
  { encIdle with
    enc := encIdle.enc.raise .dimensionMismatch 39999, dec := encIdle.dec.raise .outOfBoundsWrite 15 }

/-- With no turn pending, and with a host's turn that restarts neither unit. -/
theorem witness_FaultsAreSticky :
    step bothFault = .next bothFault ∧ bothFault.dec.status = .fault ∧ bothFault.enc.status = .fault ∧
    (∀ u, bothFault.turns.head? = some u → restartsDec bothFault.cfg u = false) ∧
    restartsDec bothFault.cfg (.host (.writeReg .decInLen 4)) = false ∧
    restartsEnc bothFault.cfg (.host (.writeReg .decCtrlStart 1)) = false := ⟨rfl, rfl, rfl, nofun, rfl, rfl⟩
theorem witness_UnsupportedExtensionIsNeverRaised :
    step bothFault = .next bothFault ∧ bothFault.enc.err ≠ .unsupportedExtension ∧
    bothFault.dec.err ≠ .unsupportedExtension := ⟨rfl, by decide, by decide⟩
theorem witness_UnpackingAPackedSampleReturnsIt :
    let s := decAt .cSkip 1 streamOf57
    s.turns = [] ∧ DecIn s .cSkip ∧ s.dec.p + 7 ≤ s.dec.inLen ∧ s.dec.inLen ≤ s.cfg.streamCap ∧
    SpaceHolds s .decStrm s.dec.p (pack 0x05) := by decide
/-- A length with a remainder, and the empty sequence. -/
theorem witness_ChunksReadBackAsTheLength :
    let s := decAt .runLen 0 [0x1F, 0x01, 0x40]
    s.turns = [] ∧ DecIn s .runLen ∧ s.dec.runlen = 0 ∧ s.dec.p + (chunks 32).length ≤ s.dec.inLen ∧
    s.dec.inLen ≤ s.cfg.streamCap ∧ SpaceHolds s .decStrm s.dec.p (chunks 32) ∧
    SpaceHolds s .decStrm s.dec.p (chunks 0) := by decide
/-- BUSY; a wrong count; the right count with two stream memories, and with one that DEC does not own. -/
theorem witness_StartEncBeginsAPass :
    encStarted.enc.status = .busy ∧
    (bothFault.enc.status ≠ .busy ∧ { bothFault.enc with srcLen := 1 }.srcLen ≠ bothFault.cfg.nsamp) ∧
    (encIdle.enc.status ≠ .busy ∧ encIdle.enc.srcLen = encIdle.cfg.nsamp ∧ encIdle.cfg.sharedStrm = false ∧
      1 ≤ encIdle.cfg.streamCap) ∧
    ({ encIdle with cfg := oneStrm }).dec.status ≠ .busy := by decide
theorem witness_StartDecBeginsAPass :
    decStarted.dec.status = .busy ∧ (bothFault.dec.status ≠ .busy ∧ bothFault.cfg.sharedStrm = false) ∧
    ({ bothFault with cfg := oneStrm }).enc.status ≠ .busy := by decide
theorem witness_StartBitsIssueTheStart : encStarted.enc.status = .busy ∧ decStarted.dec.status = .busy := by decide
/-- At the start of the row, at its last column, and over a SRC that nothing has written. -/
theorem witness_RunScanFindsTheMaximalRun :
    (encStarted.enc.x < encStarted.cfg.w ∧ encStarted.enc.y < encStarted.cfg.h ∧
      encStarted.enc.pos = encStarted.enc.y * encStarted.cfg.w + encStarted.enc.x) ∧
    (let s := after (encTurn encStarted)
     s.enc.x + 1 = s.cfg.w ∧ s.enc.y < s.cfg.h ∧ s.enc.pos = s.enc.y * s.cfg.w + s.enc.x) ∧
    ({ encStarted with src := [] } : State).src.read 0 = none := by decide
/-- An iteration inside the row, and the one that ends the row and the pass. -/
theorem witness_IterationEmitsOneRun :
    (Inv encStarted ∧ encStarted.enc.status = .busy) ∧ findRun encStarted = .ok { sample := 0x05, len := 1 } ∧
    (Inv (after (encTurn encStarted)) ∧ (after (encTurn encStarted)).enc.status = .busy) ∧
    findRun (after (encTurn encStarted)) = .ok { sample := 0x07, len := 1 } :=
  ⟨⟨inv_encStarted, by decide⟩, rfl, ⟨⟨by decide, by decide, by decide, by decide, by decide⟩, by decide⟩, rfl⟩
theorem witness_EncoderOnlyAppends :
    encTurn encStarted = .next (after (encTurn encStarted)) ∧ 0 < encStarted.enc.outLen ∧
    (after (encTurn encStarted)).enc.outLen ≤ 10 := ⟨rfl, by decide, by decide⟩
theorem witness_EncoderProducesAWellFormedStream :
    encStarted.cfg.wf ∧ encStarted.turns = [] ∧ encStarted.dec.status ≠ .busy ∧ EncStarted encStarted ∧
    SrcHolds encStarted [0x05, 0x07] := by decide
/-- A turn at a terminator in RUNLEN, where the scan position stays. -/
theorem witness_ScanPositionMovesByOneOrStays :
    decTurn lastFive = .next (after (decTurn lastFive)) ∧ (after (decTurn lastFive)).dec.p = lastFive.dec.p ∧
    (after (decTurn lastFive)).dec.status = .busy := ⟨rfl, by decide, by decide⟩
/-- Over a written stream, and over one that nothing has written. -/
theorem witness_EveryDecodeTerminates :
    (decStarted.turns = [] ∧ DecIn decStarted .scan ∧ decStarted.dec.p = 0 ∧
      decStarted.dec.inLen ≤ decStarted.cfg.streamCap) ∧
    (let s := { decStarted with decStrm := [] }
     s.turns = [] ∧ DecIn s .scan ∧ s.dec.p = 0 ∧ s.dec.inLen ≤ s.cfg.streamCap) := by decide
/-- A turn that paints the first of two cells. -/
def paintsOne : State :=
  { decAt .runLen 0 [0x40] with dec := { (decAt .runLen 0 [0x40]).dec with runlen := 1, colour := 0x05 } }

theorem witness_PaintingIsRowMajor :
    (Inv paintsOne ∧ paintsOne.dec.status = .busy ∧ UnpaintedZero paintsOne) ∧
    decTurn paintsOne = .next (after (decTurn paintsOne)) :=
  ⟨⟨⟨by decide, by decide, by decide, by decide, by decide⟩, by decide, by decide⟩, rfl⟩
theorem witness_DecoderPaintsAWellFormedStream :
    decStarted.cfg.wf ∧ decStarted.turns = [] ∧ DecStarted decStarted ∧ rowsWf decStarted.cfg rows57 = true ∧
    decStarted.dec.inLen = (sketchBytes rows57).length ∧ decStarted.dec.inLen ≤ decStarted.cfg.streamCap ∧
    SpaceHolds decStarted .decStrm 0 (sketchBytes rows57) := by decide

/-- The encoding of 05 07 is done, and its stream was copied to DEC's memory. -/
def copied : State :=
  let t := after (runSteps 2 encStarted)
  { t with decStrm := t.encStrm, dec := { t.dec with inLen := t.enc.outLen } }

theorem witness_DecodingAnEncodingReturnsTheImage :
    (encIdle.cfg.wf ∧ encIdle.turns = [] ∧ encIdle.enc.status ≠ .busy ∧ encIdle.dec.status ≠ .busy ∧
      encIdle.enc.srcLen = encIdle.cfg.nsamp ∧ SrcHolds encIdle [0x05, 0x07]) ∧
    startEnc encIdle = .next encStarted ∧ runSteps 2 encStarted = .next (after (runSteps 2 encStarted)) ∧
    (after (runSteps 2 encStarted)).enc.status = .done ∧
    (copied.cfg = encIdle.cfg ∧ copied.turns = [] ∧ copied.enc.status ≠ .busy ∧ copied.dec.status ≠ .busy ∧
      copied.dec.inLen = (after (runSteps 2 encStarted)).enc.outLen ∧
      ∀ i, i < 23 → copied.byteAt .decStrm i = (after (runSteps 2 encStarted)).byteAt .encStrm i) :=
  ⟨by decide, rfl, rfl, by decide, by decide +kernel⟩
/-- A turn of each agent from a state that meets the invariant. -/
theorem witness_StepKeepsTheInvariant :
    Inv encStarted ∧ step encStarted = .next (after (step encStarted)) ∧ Inv decStarted ∧
    step decStarted = .next (after (step decStarted)) ∧ Inv { decStarted with turns := [.host .reset] } :=
  ⟨inv_encStarted, rfl, inv_decStarted, rfl, inv_decStarted.of_turns⟩
theorem witness_StepKeepsTheConfiguration : step encStarted = .next (after (step encStarted)) := rfl
/-- BUSY over a SRC, and over a stream, that nothing has written; and before a turn that paints. -/
theorem witness_UnitsStayInTheirSpaces :
    Inv { encStarted with src := [] } ∧ Inv { decStarted with decStrm := [] } ∧ Inv paintsOne :=
  ⟨⟨by decide, by decide, by decide, by decide, by decide⟩, ⟨by decide, by decide, by decide, by decide, by decide⟩,
   witness_PaintingIsRowMajor.1.1⟩
theorem witness_BusyUnitsAlwaysStep :
    (Inv { encStarted with src := [] } ∧ encStarted.enc.status = .busy) ∧
    (Inv { decStarted with decStrm := [] } ∧ decStarted.dec.status = .busy) :=
  ⟨⟨witness_UnitsStayInTheirSpaces.1, by decide⟩, witness_UnitsStayInTheirSpaces.2.1, by decide⟩
/-- Both units BUSY, DEC's turn first. -/
theorem witness_InterleavingIsImmaterial :
    let s := { encStarted with decStrm := decStarted.decStrm, grid := decStarted.grid, dec := decStarted.dec }
    s.cfg.sharedStrm = false ∧ (∀ u ∈ [Turn.dec, .enc, .dec], u = .enc ∨ u = .dec) ∧
    runSteps 3 { s with turns := [.dec, .enc, .dec] } = .next (after (runSteps 3 { s with turns := [.dec, .enc, .dec] })) :=
  ⟨rfl, by decide, rfl⟩
theorem witness_OwnedMemoriesAreRefused :
    encStarted.enc.status = .busy ∧ decStarted.dec.status = .busy ∧
    (let s := { encStarted with cfg := oneStrm }
     s.cfg.sharedStrm = true ∧ s.enc.status = .busy ∧ s.dec.status ≠ .busy) ∧
    (let s := { decStarted with cfg := oneStrm, enc := encIdle.enc }
     s.cfg.sharedStrm = true ∧ s.dec.status = .busy ∧ s.enc.status ≠ .busy ∧ s.enc.srcLen = s.cfg.nsamp) := by decide
/-- At rest, the last index of SRC and of STRM; with DEC BUSY, ENC's two memories; with ENC BUSY, DEC's two. -/
theorem witness_HostReadsWhatItWrote :
    (encIdle.enc.status ≠ .busy ∧ encIdle.dec.status ≠ .busy ∧ 1 < Space.size encIdle.cfg .src ∧
      63 < Space.size encIdle.cfg .encStrm) ∧
    (decStarted.dec.status = .busy ∧ decStarted.enc.status ≠ .busy ∧ decStarted.cfg.sharedStrm = false) ∧
    (encStarted.enc.status = .busy ∧ encStarted.dec.status ≠ .busy ∧ encStarted.cfg.sharedStrm = false) := by decide

/-- Every register at the largest value of 32 bits, neither unit BUSY. -/
def largest : State :=
  { bothFault with
    enc := { bothFault.enc with errPos := 4294967295, srcLen := 4294967295, outLen := 4294967295, x := 4294967295,
                                y := 4294967295, pos := 4294967295 },
    dec := { bothFault.dec with errPos := 4294967295, inLen := 4294967295, p := 4294967295, x := 4294967295,
                                y := 4294967295 } }

theorem witness_HostReadsRegisters :
    (largest.enc.status ≠ .busy ∧ largest.enc.errPos < 2 ^ 32 ∧ largest.enc.srcLen < 2 ^ 32 ∧
      largest.enc.outLen < 2 ^ 32 ∧ largest.enc.x < 2 ^ 32 ∧ largest.enc.y < 2 ^ 32 ∧ largest.enc.pos < 2 ^ 32) ∧
    (largest.dec.status ≠ .busy ∧ largest.dec.errPos < 2 ^ 32 ∧ largest.dec.inLen < 2 ^ 32 ∧
      largest.dec.p < 2 ^ 32 ∧ largest.dec.x < 2 ^ 32 ∧ largest.dec.y < 2 ^ 32) ∧
    (encStarted.enc.status = .busy ∧ HostReg.encPos ∈ [HostReg.encErr, .encErrPos, .encSrcLen, .encOutLen, .encX, .encY, .encPos]) ∧
    (decStarted.dec.status = .busy ∧
      HostReg.decPhase ∈ [HostReg.decErr, .decErrPos, .decInLen, .decP, .decX, .decY, .decPhase]) := by decide
/-- An address the map lists once, and one it does not list. -/
theorem witness_BusAccessesReachTheMappedRegister :
    ((8, HostReg.decCtrlStart) ∈ encIdle.cfg.regMap ∧ ∀ q, (8, q) ∈ encIdle.cfg.regMap → q = HostReg.decCtrlStart) ∧
    ∀ r, (4, r) ∉ encIdle.cfg.regMap := by
  refine ⟨⟨by decide, ?_⟩, ?_⟩
  · intro q hq; cases q <;> revert hq <;> decide
  · intro r; cases r <;> decide
/-- An ADVANCE_Y_PAINT and an ADVANCE_Y_SKIP of a well-formed stream. -/
theorem witness_ImpliedToolOfWellFormedStreams :
    twoByOne.wf ∧ rowsWf twoByOne rows57 = true ∧ (sketchBytes rows57)[9]? = some 0x40 ∧
    (sketchBytes rows57)[21]? = some 0x41 := by decide
theorem witness_ShapeOfWellFormedStreams :
    twoByOne.wf ∧ rowsWf twoByOne rows57 = true ∧ sketchBytes rows57 = streamOf57 := by decide

end Sys2Proof.Tests
end

section
/-! PROOF. The registers after a hardware reset (spec/10_state.md R33). -/

namespace Sys2Proof.Machine

/-- Settles O1. `State.reset` holds `Enc.reset` and `Dec.reset`, so each register is read off the unit's reset record. -/
theorem resetLeavesTheRuleValues : Obligations.ResetLeavesTheRuleValues := by
  refine ⟨?enc, ?dec⟩
  case enc =>
    exact ⟨rfl, rfl, rfl, rfl, rfl, rfl, rfl, rfl⟩
  case dec =>
    exact ⟨rfl, rfl, rfl, rfl, rfl, rfl, rfl, rfl, rfl, rfl, rfl⟩

end Sys2Proof.Machine
end

section
/-! PROOF. The class of a byte (spec/30_encoding.md R72): the decoder's tests by mask are R72's tests by range. -/

namespace Sys2Proof.Machine

/-- Format N's mask (R61) selects the range R72 gives `RUN`. -/
theorem runMask_iff_range (b : Byte) : b &&& 0xE0 = 0x00 ↔ b.toNat ≤ 0x1F := by
  revert b
  decide +kernel

/-- Format D's mask (R61) selects the range R72 gives `DATA`. -/
theorem dataMask_iff_range (b : Byte) : b &&& 0xC0 = 0xC0 ↔ 0xC0 ≤ b.toNat := by
  revert b
  decide +kernel

/-- The first eight tests of `decodeByte` are those of `classOf`, in the same order; every opcode after them is of the
class of reserved bytes. -/
theorem byteClass_decodeByte (b : Byte) : (decodeByte b).byteClass = classOf b := by
  simp only [decodeByte, runMask_iff_range, dataMask_iff_range, apply_ite Instr.byteClass]
  simp only [Instr.byteClass, ite_self, classOf]

/-- Settles O6. The statement writes out the ranges of `classOf`. -/
theorem byteClassFollowsTheRanges : Obligations.ByteClassFollowsTheRanges :=
  byteClass_decodeByte

end Sys2Proof.Machine
end

section
/-! PROOF. The colour unpack (spec/41_colour_pack_unpack.md R87 to R90): DEC's turn in C_SEED and in C_ACC, from the byte
it fetches to its next state. -/

namespace Sys2Proof.Machine

/-- The opcode read from a byte has that byte: a row of one value is tested for it, a reserved row carries it, and the
fixed bits of formats N and D are those their masks test (R61, R62). -/
@[simp] theorem encode_decodeByte (b : Byte) : encode (decodeByte b) = b := by
  revert b
  decide +kernel

/-- An unpack cut off by the end of the stream is malformed (R86, R87, R90). -/
theorem decTurn_of_end_in_colour {s : State} {ph : Phase} (hd : DecIn s ph)
    (hph : ph = .cSkip ∨ ph = .cSeed ∨ ph = .cAcc) (hp : s.dec.p = s.dec.inLen) :
    decTurn s = .next { s with dec := s.dec.raise .malformedColourSequence s.dec.p } := by
  obtain ⟨hb, rfl⟩ := hd
  rw [decTurn_of_end hb hp]
  rcases hph with h | h | h <;> simp only [endOfStream, h, raiseDec]

/-- Any byte fetched in C_SEED is the seed (R87). -/
theorem decTurn_of_fetch_in_cSeed {s : State} {b : Byte} (hd : DecIn s .cSeed) (hp : s.dec.p ≠ s.dec.inLen)
    (hf : fetchByte s = .ok b) : decTurn s = .next { s with dec := s.dec.seed b } := by
  rw [decTurn_of_fetch hd.1 hp hf, exec_cSeed hd, encode_decodeByte, onDec]

/-- A byte fetched in C_ACC ends the unpack if it is COLOUR_END, and is accumulated otherwise (R88, R89). -/
theorem decTurn_of_fetch_in_cAcc {s : State} {b : Byte} (hd : DecIn s .cAcc) (hp : s.dec.p ≠ s.dec.inLen)
    (hf : fetchByte s = .ok b) :
    decTurn s = .next { s with dec := if b = 0x83 then s.dec.endColour else s.dec.accumulate b } := by
  obtain ⟨-, -, -, hend⟩ := decodeByte_eq_control b
  rw [decTurn_of_fetch hd.1 hp hf, exec_cAcc hd, encode_decodeByte]
  simp only [hend]
  split <;> rfl

/-- Settles O20: DEC's turn in C_SEED is the end of an unpack or the seed of the fetched byte. -/
theorem seedStepFollowsItsRule : Obligations.SeedStepFollowsItsRule := by
  intro s hd
  refine ⟨fun hp => ?atEnd, fun hp b hf => ?atByte⟩
  case atEnd => exact decTurn_of_end_in_colour hd (.inr (.inl rfl)) hp
  case atByte => exact decTurn_of_fetch_in_cSeed hd hp hf

/-- Settles O21: DEC's turn in C_ACC is the end of an unpack or, by the fetched byte, one of two arms. -/
theorem accumulateStepFollowsItsRules : Obligations.AccumulateStepFollowsItsRules := by
  intro s hd
  refine ⟨fun hp => ?atEnd, fun hp b hf => ⟨fun hne => ?group, fun heq => ?colourEnd⟩⟩
  case atEnd => exact decTurn_of_end_in_colour hd (.inr (.inr rfl)) hp
  case group => rw [decTurn_of_fetch_in_cAcc hd hp hf, if_neg hne]; rfl
  case colourEnd => rw [decTurn_of_fetch_in_cAcc hd hp hf, if_pos heq]; rfl

end Sys2Proof.Machine
end

section
/-! PROOF. The packed colour token and its groups (spec/41_colour_pack_unpack.md R80 to R82), bit by bit. -/

namespace Sys2Proof.Machine

/-- The low byte of the token is all ones, and bit `i` above it is bit `i % 8` of the sample (R80). -/
theorem getLsbD_token (s : Byte) {i : Nat} (hi : i < 32) :
    (token s).getLsbD i = (decide (i < 8) || s.getLsbD (i % 8)) := by
  interval_cases i <;> simp [token]

/-- Each byte of the token above the lowest is the sample (R80). -/
theorem extractLsb'_token_sample (s : Byte) {k : Nat} (hk : k = 24 ∨ k = 16 ∨ k = 8) :
    (token s).extractLsb' k 8 = s := by
  ext i hi
  have hbit : (k + i) % 8 = i := by omega
  have hhigh : ¬ k + i < 8 := by omega
  rw [BitVec.getElem_extractLsb', getLsbD_token s (by omega)]
  simp [hbit, hhigh, BitVec.getLsbD_eq_getElem hi]

/-- The lowest byte of the token is the alpha byte (R80). -/
theorem extractLsb'_token_alpha (s : Byte) : (token s).extractLsb' 0 8 = Vocab.alpha := by
  ext i hi
  rw [BitVec.getElem_extractLsb', getLsbD_token s (by omega)]
  interval_cases i <;> simp

/-- A group is the six bits of the word from bit `k` up (R81). -/
theorem getLsbD_tokenGroup (w : Word) (k : Nat) {i : Nat} (hi : i < 8) :
    (tokenGroup w k).getLsbD i = (decide (i < 6) && w.getLsbD (k + i)) := by
  interval_cases i <;> simp [tokenGroup]

/-- The groups of the token in terms of the sample (R81): the topmost has two bits, and a group that crosses a byte of
the token joins the low bits of the sample above it to the high bits of the sample, or of alpha, below it. -/
theorem tokenGroup_token (s : Byte) :
    tokenGroup (token s) 30 = s >>> 6 ∧ tokenGroup (token s) 24 = s &&& 0x3F ∧
    tokenGroup (token s) 18 = s >>> 2 ∧ tokenGroup (token s) 12 = ((s &&& 0x03) <<< 4) ||| (s >>> 4) ∧
    tokenGroup (token s) 6 = ((s &&& 0x0F) <<< 2) ||| 0x03 := by
  refine ⟨?_, ?_, ?_, ?_, ?_⟩
  all_goals
    ext i hi
    rw [← BitVec.getLsbD_eq_getElem, getLsbD_tokenGroup _ _ hi]
    interval_cases i <;> simp [getLsbD_token, ← BitVec.getLsbD_eq_getElem]

/-- Settles O33, from the token's bytes and its groups. -/
theorem packLaysOutTheGroups : Obligations.PackLaysOutTheGroups := by
  intro s
  refine ⟨⟨?top, ?high, ?low, ?alpha⟩, ?pack⟩
  case top => exact extractLsb'_token_sample s (.inl rfl)
  case high => exact extractLsb'_token_sample s (.inr (.inl rfl))
  case low => exact extractLsb'_token_sample s (.inr (.inr rfl))
  case alpha => exact extractLsb'_token_alpha s
  case pack =>
    obtain ⟨h30, h24, h18, h12, h6⟩ := tokenGroup_token s
    rw [pack, h30, h24, h18, h12, h6]
    rfl

end Sys2Proof.Machine
end

section
/-! PROOF. The run-length chunks (spec/42_encoder.md R105): their sum and the range of each byte. -/

namespace Sys2Proof.Machine

/-- Whole chunks and the remainder make up the length (R105). -/
theorem sum_chunks (l : Nat) : ((chunks l).map BitVec.toNat).sum = l := by
  unfold chunks Vocab.chunkMax
  split
  case isTrue hrem => simp; omega
  case isFalse hrem => simp; omega

/-- A chunk is 31, or a remainder that is not zero (R105). -/
theorem toNat_of_mem_chunks {l : Nat} {b : Byte} (hb : b ∈ chunks l) : 1 ≤ b.toNat ∧ b.toNat ≤ 31 := by
  unfold chunks Vocab.chunkMax at hb
  rcases List.mem_append.mp hb with hfull | hrest
  · rw [List.eq_of_mem_replicate hfull]
    decide
  · split at hrest
    · cases hrest
    · rw [List.mem_singleton.mp hrest, BitVec.toNat_ofNat]
      omega

/-- Settles O35: the form is the definition's with its test turned over, the sum and the range are the lemmas above. -/
theorem chunksSumToTheLength : Obligations.ChunksSumToTheLength := by
  intro l
  refine ⟨?form, ?length, sum_chunks l, fun b hb => toNat_of_mem_chunks hb⟩
  case form => simp only [chunks, ite_not]
  case length => rw [length_chunks, nchunks, ite_not]

end Sys2Proof.Machine
end

section
/-! PROOF. START_ENC and the run scan (spec/42_encoder.md R101, R103). -/

namespace Sys2Proof.Machine

/-- START_ENC while BUSY (R204). -/
theorem startEnc_of_busy {s : State} (hb : s.enc.status = .busy) : startEnc s = .next s := by
  simp [startEnc, hb]

/-- START_ENC with a wrong sample count (R101, R176). -/
theorem startEnc_of_mismatch {s : State} (hb : s.enc.status ≠ .busy) (hn : s.enc.srcLen ≠ s.cfg.nsamp) :
    startEnc s = .next { s with enc := s.enc.restart.raise .dimensionMismatch s.enc.srcLen } := by
  simp [startEnc, State.encBusy, hb, hn, raiseEnc]

/-- The state in which START_ENC leaves a block with the right sample count (R101; log 8). -/
def State.encStarted (s : State) : State :=
  { s with
    enc := { s.enc.restart with toUnitCtl := s.enc.restart.toUnitCtl.begin, outLen := 1 },
    encStrm := [(0, Vocab.toolLine)], contents := s.contents.renewEncStrm }

/-- START_ENC with the right sample count, on a stream memory that DEC does not own (R101). -/
theorem startEnc_of_match {s : State} (hb : s.enc.status ≠ .busy) (hn : s.enc.srcLen = s.cfg.nsamp)
    (hshared : s.cfg.sharedStrm = false ∨ s.dec.status ≠ .busy) (hcap : 1 ≤ s.cfg.streamCap) :
    startEnc s = .next s.encStarted := by
  have howned : (s.cfg.sharedStrm && s.decBusy) = false := by
    rcases hshared with h | h <;> simp [State.decBusy, h]
  simp [startEnc, State.encBusy, hb, hn, howned, emit, hcap, Memory.writeList, Memory.write,
    State.encStarted]

/-- Settles O37: one clause for each arm of START_ENC. -/
theorem startEncBeginsAPass : Obligations.StartEncBeginsAPass := by
  intro s
  refine ⟨startEnc_of_busy, fun hb hn => ?mismatch, fun hb hn hshared hcap => ?fresh⟩
  case mismatch => exact startEnc_of_mismatch hb hn
  case fresh => exact ⟨_, startEnc_of_match hb hn hshared hcap, rfl, rfl⟩

/-- Settles O40: the row of the sample pointer lies in SRC, so the scan completes; `findRun_ok` says what it finds. -/
theorem runScanFindsTheMaximalRun : Obligations.RunScanFindsTheMaximalRun := by
  intro s hx hy hpos
  have hrow : s.enc.y * s.cfg.w + s.cfg.w ≤ s.cfg.nsamp := row_le le_rfl hy
  obtain ⟨r, hr⟩ := findRun_completes (s := s) (by omega)
  obtain ⟨hlen, hroom, heq, hnext⟩ := findRun_ok hr
  refine ⟨r, hr, hlen, by omega, fun j hj => (State.load_eq_ok.mp (heq j hj)).2, ?maximal⟩
  case maximal =>
    rcases Nat.lt_or_ge r.len (s.cfg.w - (s.enc.x + 1) + 1) with hshort | hfull
    · obtain ⟨b, hne, hload⟩ := hnext hshort
      exact .inr ((State.load_eq_ok.mp hload).2 ▸ hne)
    · exact .inl (by omega)

end Sys2Proof.Machine
end

section
/-! SUPPORT. What an image, its rows and their bytes are to each other (spec/42_encoder.md R112, R114), and where they
stand in a memory. -/

namespace Sys2Proof.Machine

/-- Bytes emitted one list after the other are emitted as one list. -/
theorem Memory.writeList_append (m : Memory) (a : Nat) (xs ys : List Byte) :
    m.writeList a (xs ++ ys) = (m.writeList a xs).writeList (a + xs.length) ys := by
  induction xs generalizing m a with
  | nil => rfl
  | cons x xs ih =>
    rw [List.length_cons, Nat.add_comm xs.length, ← Nat.add_assoc]
    exact ih (m.write a x) (a + 1)

@[simp] theorem rowSamples_nil : rowSamples [] = [] := rfl

@[simp] theorem rowSamples_cons (r : Run) (rs : List Run) :
    rowSamples (r :: rs) = List.replicate r.len r.sample ++ rowSamples rs := rfl

@[simp] theorem length_rowSamples (row : List Run) : (rowSamples row).length = (row.map Run.len).sum := by
  induction row with
  | nil => rfl
  | cons r rs ih => simp [ih]

@[simp] theorem sketchSamples_nil : sketchSamples [] = [] := rfl

@[simp] theorem sketchSamples_cons (row : List Run) (rows : List (List Run)) :
    sketchSamples (row :: rows) = rowSamples row ++ sketchSamples rows := rfl

theorem rowBytes_cons (r : Run) (rs : List Run) : rowBytes (r :: rs) = paintSeq r.sample r.len ++ rowBytes rs := by
  simp [rowBytes]

/-- What a well-formed row is (R112). -/
theorem rowWf_iff {c : Config} {row : List Run} :
    rowWf c row = true ↔
      (∀ r ∈ row, 1 ≤ r.len) ∧ (row.map Run.len).sum = c.w ∧ adjacentDiffer row = true := by
  simp [rowWf, and_assoc]

/-- Rows of `W` samples each make an image of `W` times their number. -/
theorem length_sketchSamples {c : Config} {rows : List (List Run)} (h : ∀ row ∈ rows, rowWf c row = true) :
    (sketchSamples rows).length = rows.length * c.w := by
  induction rows with
  | nil => simp
  | cons row rows ih =>
    obtain ⟨hrow, hrows⟩ := List.forall_mem_cons.mp h
    obtain ⟨-, hsum, -⟩ := rowWf_iff.mp hrow
    rw [sketchSamples_cons, List.length_append, ih hrows, length_rowSamples, hsum, List.length_cons]
    ring

/-- A well-formed stream stands for an image of NSAMP samples (R112). -/
theorem length_sketchSamples_of_rowsWf {c : Config} {rows : List (List Run)} (h : rowsWf c rows = true) :
    (sketchSamples rows).length = c.nsamp := by
  simp only [rowsWf, Bool.and_eq_true, decide_eq_true_eq, List.all_eq_true] at h
  rw [length_sketchSamples h.2, h.1, Config.nsamp, Nat.mul_comm]

/-- What a space holds from an index up is determined by its length. -/
theorem spaceHolds_unique {s : State} {sp : Space} {a : Nat} {xs ys : List Byte} (hx : SpaceHolds s sp a xs)
    (hy : SpaceHolds s sp a ys) (hlen : xs.length = ys.length) : xs = ys := by
  refine List.ext_getElem? fun i => ?_
  rcases Nat.lt_or_ge i xs.length with hi | hi
  · rw [← hx i hi, ← hy i (hlen ▸ hi)]
  · rw [List.getElem?_eq_none hi, List.getElem?_eq_none (hlen ▸ hi)]

/-- A space that holds the same sample over and over. -/
theorem spaceHolds_replicate {s : State} {sp : Space} {a n : Nat} {v : Byte} :
    SpaceHolds s sp a (List.replicate n v) ↔ ∀ j, j < n → s.byteAt sp (a + j) = v := by
  unfold SpaceHolds
  rw [List.length_replicate]
  refine forall₂_congr fun j hj => ?_
  rw [List.getElem?_replicate, if_pos hj, Option.some_inj]

end Sys2Proof.Machine
end

section
/-! PROOF. A pass of ENC (spec/42_encoder.md R100 to R110): each iteration appends one run, the iterations of a row
append a well-formed row, and the rows of the pass make the well-formed stream of the image in SRC (R112, R114). -/

namespace Sys2Proof.Machine

/-- ENC between two iterations of a pass, or at its end, with the turns its own: the cursor is the pointer's row and
column, ENC is DONE exactly at the end of SRC, and STRM has room left for the rest of the longest stream (R7, R56). -/
structure EncPass (s : State) : Prop where
  wf : s.cfg.wf
  turns : s.turns = []
  dec_ne_busy : s.dec.status ≠ .busy
  status : s.enc.status = if s.enc.pos = s.cfg.nsamp then .done else .busy
  pos : s.enc.pos = s.enc.y * s.cfg.w + s.enc.x
  x_lt : s.enc.x < s.cfg.w
  pos_le : s.enc.pos ≤ s.cfg.nsamp
  outLen_le : s.enc.outLen ≤ 1 + s.enc.pos * 9 + s.enc.y * 4

/-- Turns of ENC lead from `s` to `t`, at most one for each sample they pass, and append `bs` to the stream; nothing
else of the state changes. -/
structure Encodes (s t : State) (bs : List Byte) : Prop where
  reaches : ∃ k, s.enc.pos + k ≤ t.enc.pos ∧ runSteps k s = .next t
  frame : t = { s with enc := t.enc, encStrm := s.encStrm.writeList s.enc.outLen bs }
  outLen : t.enc.outLen = s.enc.outLen + bs.length

theorem Encodes.refl (s : State) : Encodes s s [] := ⟨⟨0, by omega, runSteps_zero s⟩, rfl, rfl⟩

theorem Encodes.trans {s t u : State} {bs cs : List Byte} (h : Encodes s t bs) (h' : Encodes t u cs) :
    Encodes s u (bs ++ cs) := by
  obtain ⟨⟨j, hj, hst⟩, hframe, hout⟩ := h
  obtain ⟨⟨k, hk, htu⟩, hframe', hout'⟩ := h'
  refine ⟨⟨j + k, by omega, (runSteps_add hst).trans htu⟩, ?frame, ?outLen⟩
  case frame =>
    rw [Memory.writeList_append, ← hout, hframe', hframe]
  case outLen => rw [hout', hout, List.length_append, Nat.add_assoc]

theorem Encodes.cfg {s t : State} {bs : List Byte} (h : Encodes s t bs) : t.cfg = s.cfg := by rw [h.frame]

/-- A pass of ENC does not change what SRC holds. -/
theorem Encodes.spaceHolds_src {s t : State} {bs : List Byte} (h : Encodes s t bs) {a : Nat} {px : List Byte} :
    SpaceHolds t .src a px ↔ SpaceHolds s .src a px := by
  rw [h.frame]
  exact Iff.rfl

/-- The longest stream, counted by samples and rows (R7). -/
theorem outMax_eq (c : Config) : c.outMax = 1 + c.nsamp * 9 + c.h * 4 := by
  unfold Config.outMax Config.nsamp
  ring

/-- Before the end of SRC the cursor is in a row of the raster, and that row is inside SRC. -/
theorem EncPass.row_in_src {s : State} (h : EncPass s) (hlt : s.enc.pos < s.cfg.nsamp) :
    s.enc.y < s.cfg.h ∧ s.enc.y * s.cfg.w + s.cfg.w ≤ s.cfg.nsamp := by
  have hy : s.enc.y < s.cfg.h := row_lt_of_index (h.pos ▸ hlt)
  exact ⟨hy, row_le le_rfl hy⟩

/-- The cursor is never below the last row's end. -/
theorem EncPass.y_le {s : State} (h : EncPass s) : s.enc.y ≤ s.cfg.h := by
  have hle : s.enc.y * s.cfg.w ≤ s.cfg.h * s.cfg.w := by
    have := h.pos_le
    rw [h.pos, Config.nsamp, Nat.mul_comm s.cfg.w] at this
    omega
  exact Nat.le_of_mul_le_mul_right hle h.wf.1

/-- STRM has room for what a pass has emitted (R56). -/
theorem EncPass.outLen_le_streamCap {s : State} (h : EncPass s) : s.enc.outLen ≤ s.cfg.streamCap := by
  obtain ⟨-, -, -, -, hcap, -⟩ := h.wf
  rw [outMax_eq] at hcap
  have := h.outLen_le
  have := h.pos_le
  have := h.y_le
  omega

/-- The bytes and the registers after an iteration that found the run `r` (R102). -/
def State.afterIteration (s : State) (r : Run) : State :=
  { s with
    encStrm := s.encStrm.writeList s.enc.outLen (runBytes s.cfg s.enc.x r),
    enc := Enc.afterRun s.cfg { s.enc with outLen := s.enc.outLen + (runBytes s.cfg s.enc.x r).length } r.len }

@[simp] theorem State.afterIteration_pos (s : State) (r : Run) : (s.afterIteration r).enc.pos = s.enc.pos + r.len :=
  Enc.afterRun_pos _ _ _

@[simp] theorem State.afterIteration_outLen (s : State) (r : Run) :
    (s.afterIteration r).enc.outLen = s.enc.outLen + (runBytes s.cfg s.enc.x r).length := Enc.afterRun_outLen _ _ _

theorem State.afterIteration_x (s : State) (r : Run) :
    (s.afterIteration r).enc.x = if s.enc.x + r.len = s.cfg.w then 0 else s.enc.x + r.len := Enc.afterRun_x _ _ _

theorem State.afterIteration_y (s : State) (r : Run) :
    (s.afterIteration r).enc.y = if s.enc.x + r.len = s.cfg.w then s.enc.y + 1 else s.enc.y := Enc.afterRun_y _ _ _

/-- A pass that is not at the end of SRC goes on. -/
theorem EncPass.busy {s : State} (h : EncPass s) (hlt : s.enc.pos < s.cfg.nsamp) : s.enc.status = .busy :=
  h.status.trans (if_neg hlt.ne)

/-- A run inside its row keeps the pass going, and STRM has room for its bytes. -/
theorem EncPass.afterIteration {s : State} (h : EncPass s) (hlt : s.enc.pos < s.cfg.nsamp) {r : Run}
    (hpos : 1 ≤ r.len) (hrow : s.enc.x + r.len ≤ s.cfg.w) : EncPass (s.afterIteration r) := by
  obtain ⟨hpos', hx', -, -, -, hstatus, -⟩ := Enc.afterRun_eq h.wf.1
    { s.enc with outLen := s.enc.outLen + (runBytes s.cfg s.enc.x r).length } r.len hrow h.pos
  refine ⟨h.wf, h.turns, h.dec_ne_busy, ?status, hpos', hx', ?pos_le, ?outLen_le⟩
  case status => rw [State.afterIteration_pos, ← h.busy hlt]; exact hstatus
  case pos_le =>
    obtain ⟨-, hend⟩ := h.row_in_src hlt
    have hcur := h.pos
    rw [State.afterIteration_pos]
    show s.enc.pos + r.len ≤ s.cfg.nsamp
    omega
  case outLen_le =>
    have hroom := h.outLen_le
    have hbytes := length_runBytes_le (c := s.cfg) (x := s.enc.x) hpos
    rw [State.afterIteration_outLen, State.afterIteration_pos, State.afterIteration_y]
    split at hbytes
    case isTrue hend => rw [if_pos hend]; omega
    case isFalse hinside => rw [if_neg hinside]; omega

/-- An iteration of a pass finds a maximal run of its row and appends the run's bytes (R102 to R109). -/
theorem EncPass.exists_iteration {s : State} (h : EncPass s) (hlt : s.enc.pos < s.cfg.nsamp) :
    ∃ r : Run, 1 ≤ r.len ∧ s.enc.x + r.len ≤ s.cfg.w ∧
      SpaceHolds s .src s.enc.pos (List.replicate r.len r.sample) ∧
      (s.enc.x + r.len = s.cfg.w ∨ s.byteAt .src (s.enc.pos + r.len) ≠ r.sample) ∧
      EncPass (s.afterIteration r) ∧ Encodes s (s.afterIteration r) (runBytes s.cfg s.enc.x r) := by
  obtain ⟨r, hr, hpos, hroom, heq, hmax⟩ := runScanFindsTheMaximalRun s h.x_lt (h.row_in_src hlt).1 h.pos
  have hx := h.x_lt
  have hnext := h.afterIteration hlt hpos (show s.enc.x + r.len ≤ s.cfg.w by omega)
  have hstep : step s = .next (s.afterIteration r) := by
    rw [step_of_dec_not_busy h.turns h.dec_ne_busy, encTurn, if_pos (State.encBusy_eq_true.mpr (h.busy hlt))]
    exact iterate_of_findRun hr (s.afterIteration_outLen r ▸ hnext.outLen_le_streamCap)
  have hone : runSteps 1 s = .next (s.afterIteration r) := (runSteps_succ hstep).trans (runSteps_zero _)
  refine ⟨r, hpos, by omega, spaceHolds_replicate.mpr heq, hmax, hnext, ?_⟩
  exact ⟨⟨1, by rw [State.afterIteration_pos]; omega, hone⟩, rfl, s.afterIteration_outLen r⟩

/-- `runs` is the rest of the row at ENC's cursor, as R112 cuts it: runs of length 1 or more that fill the row,
neighbours differing, and SRC holds their samples from the pointer on. -/
structure RestOfRow (s : State) (runs : List Run) : Prop where
  len_pos : ∀ r ∈ runs, 1 ≤ r.len
  sum : s.enc.x + (runs.map Run.len).sum = s.cfg.w
  differ : adjacentDiffer runs = true
  samples : SpaceHolds s .src s.enc.pos (rowSamples runs)

/-- A maximal run before the rest of its row: the next run begins with the sample that ended it (R103). -/
theorem RestOfRow.cons {s : State} {r : Run} {runs : List Run} (hpos : 1 ≤ r.len)
    (hx : s.enc.x + r.len ≠ s.cfg.w)
    (hsamples : SpaceHolds s .src s.enc.pos (List.replicate r.len r.sample))
    (hmax : s.byteAt .src (s.enc.pos + r.len) ≠ r.sample)
    (h : RestOfRow (s.afterIteration r) runs) : RestOfRow s (r :: runs) := by
  obtain ⟨hlen, hsum, hdiffer, hrest⟩ := h
  replace hrest : SpaceHolds s .src (s.enc.pos + r.len) (rowSamples runs) := s.afterIteration_pos r ▸ hrest
  refine ⟨List.forall_mem_cons.mpr ⟨hpos, hlen⟩, ?sum, ?differ, ?samples⟩
  case sum =>
    rw [State.afterIteration_x, if_neg hx] at hsum
    rw [List.map_cons, List.sum_cons, ← Nat.add_assoc]
    exact hsum
  case samples =>
    rw [rowSamples_cons, spaceHolds_append, List.length_replicate]
    exact ⟨hsamples, hrest⟩
  case differ =>
    cases runs with
    | nil => rfl
    | cons q qs =>
      rw [rowSamples_cons, spaceHolds_append, spaceHolds_replicate] at hrest
      have hq : s.byteAt .src (s.enc.pos + r.len) = q.sample := hrest.1 0 (hlen q (by simp))
      simp only [adjacentDiffer, Bool.and_eq_true, decide_eq_true_eq]
      exact ⟨fun heq => hmax (hq.trans heq.symm), hdiffer⟩

/-- The iterations up to the end of a row append the rest of that row (R103 to R108). -/
theorem EncPass.exists_restOfRow {s : State} (h : EncPass s) (hlt : s.enc.pos < s.cfg.nsamp) :
    ∃ t runs, EncPass t ∧ Encodes s t (rowBytes runs) ∧ RestOfRow s runs ∧ t.enc.x = 0 ∧ t.enc.y = s.enc.y + 1 := by
  induction hn : s.cfg.w - s.enc.x using Nat.strong_induction_on generalizing s with
  | _ n ih =>
  obtain ⟨r, hpos, hrow, hsamples, hmax, hnext, henc⟩ := h.exists_iteration hlt
  by_cases hx : s.enc.x + r.len = s.cfg.w
  case pos =>
    have hrest : RestOfRow s [r] := ⟨by simpa using hpos, by simpa using hx, rfl, by simpa using hsamples⟩
    refine ⟨s.afterIteration r, [r], hnext, ?_, hrest, (s.afterIteration_x r).trans (if_pos hx),
      (s.afterIteration_y r).trans (if_pos hx)⟩
    simpa [runBytes, rowBytes, hx] using henc
  case neg =>
    have hx' : (s.afterIteration r).enc.x = s.enc.x + r.len := (s.afterIteration_x r).trans (if_neg hx)
    have hy' : (s.afterIteration r).enc.y = s.enc.y := (s.afterIteration_y r).trans (if_neg hx)
    have hcfg : (s.afterIteration r).cfg = s.cfg := rfl
    have hin : (s.afterIteration r).enc.pos < (s.afterIteration r).cfg.nsamp := by
      have hend := (h.row_in_src hlt).2
      have := h.pos
      rw [hnext.pos, hx', hy', hcfg]
      omega
    have := h.x_lt
    obtain ⟨t, runs, ht, hruns, hrest, htx, hty⟩ := ih _ (by rw [hcfg, hx']; omega) hnext hin rfl
    refine ⟨t, r :: runs, ht, ?_, hrest.cons hpos hx hsamples (hmax.resolve_left hx), htx, hty.trans (by rw [hy'])⟩
    rw [runBytes, if_neg hx, List.append_nil] at henc
    exact rowBytes_cons r runs ▸ henc.trans hruns

/-- From the start of a row on, a pass appends the rows that are left, and ends at the end of SRC (R100, R109). -/
theorem EncPass.exists_rows {s : State} (h : EncPass s) (hx : s.enc.x = 0) :
    ∃ t rows, EncPass t ∧ Encodes s t (rows.flatMap rowBytes) ∧ t.enc.x = 0 ∧ t.enc.y = s.cfg.h ∧
      s.enc.y + rows.length = s.cfg.h ∧ (∀ row ∈ rows, rowWf s.cfg row = true) ∧
      SpaceHolds s .src s.enc.pos (sketchSamples rows) := by
  have hy := h.y_le
  induction hn : s.cfg.h - s.enc.y generalizing s with
  | zero =>
    exact ⟨s, [], h, Encodes.refl s, hx, by omega, by simp; omega, by simp, nofun⟩
  | succ n ih =>
    have hlt : s.enc.pos < s.cfg.nsamp := by
      have hrow : s.enc.y * s.cfg.w + s.cfg.w ≤ s.cfg.nsamp := row_le le_rfl (by omega)
      have := h.pos
      have := h.x_lt
      omega
    obtain ⟨t, runs, ht, hrow, ⟨hlen, hsum, hdiffer, hsamples⟩, htx, hty⟩ := h.exists_restOfRow hlt
    have hcfg := hrow.cfg
    obtain ⟨u, rows, hu, hrows, hux, huy, hcount, hwf, himg⟩ := ih ht htx ht.y_le (by rw [hcfg, hty]; omega)
    rw [hcfg] at hcount hwf
    refine ⟨u, runs :: rows, hu, hrow.trans hrows, hux, huy.trans (by rw [hcfg]), ?count, ?wf, ?img⟩
    case count => rw [List.length_cons]; omega
    case wf =>
      exact List.forall_mem_cons.mpr ⟨rowWf_iff.mpr ⟨hlen, by omega, hdiffer⟩, hwf⟩
    case img =>
      have hpos : t.enc.pos = s.enc.pos + (rowSamples runs).length := by
        rw [ht.pos, h.pos, hcfg, htx, hty, hx, length_rowSamples, Nat.add_mul]
        omega
      rw [hrow.spaceHolds_src, hpos] at himg
      exact spaceHolds_append.mpr ⟨hsamples, himg⟩

/-- A pass just started is at the start of the first row (R101). -/
theorem EncPass.of_encStarted {s : State} (hwf : s.cfg.wf) (hturns : s.turns = []) (hdec : s.dec.status ≠ .busy)
    (h : EncStarted s) : EncPass s := by
  obtain ⟨hbusy, hpos, hx, hy, hout, -⟩ := h
  have ⟨hw, _, hh, _⟩ := hwf
  have hsamples : 0 < s.cfg.nsamp := Nat.mul_pos hw hh
  refine ⟨hwf, hturns, hdec, ?_, by rw [hpos, hx, hy]; simp, by omega, by omega, by omega⟩
  rw [hbusy, if_neg (by omega)]

/-- A pass just started ends at the end of SRC, with the well-formed stream of the image in STRM (R109, R112, R114). -/
theorem EncPass.exists_stream {s : State} {img : List Byte} (h : EncPass s) (hs : EncStarted s)
    (himg : SrcHolds s img) :
    ∃ t rows, EncPass t ∧ Encodes s t (rows.flatMap rowBytes) ∧ t.enc.x = 0 ∧ t.enc.y = s.cfg.h ∧
      t.enc.pos = s.cfg.nsamp ∧ rowsWf s.cfg rows = true ∧ sketchSamples rows = img ∧
      t.enc.outLen = (sketchBytes rows).length ∧ HoldsAt t.encStrm 0 (sketchBytes rows) := by
  obtain ⟨-, hpos, hx, hy, hout, hfirst⟩ := hs
  obtain ⟨hlen, hsrc⟩ := himg
  obtain ⟨t, rows, ht, henc, htx, hty, hcount, hrows, hsamples⟩ := h.exists_rows hx
  have hwf : rowsWf s.cfg rows = true := by
    simp only [rowsWf, Bool.and_eq_true, decide_eq_true_eq, List.all_eq_true]
    exact ⟨by omega, hrows⟩
  refine ⟨t, rows, ht, henc, htx, hty, ?pos, hwf, ?img, ?outLen, ?stream⟩
  case pos => rw [ht.pos, henc.cfg, htx, hty, Config.nsamp, Nat.add_zero, Nat.mul_comm]
  case img =>
    exact spaceHolds_unique (hpos ▸ hsamples) hsrc ((length_sketchSamples_of_rowsWf hwf).trans hlen.symm)
  case outLen => rw [henc.outLen, hout, sketchBytes, List.length_cons, Nat.add_comm]
  case stream =>
    rw [henc.frame, hout]
    refine holdsAt_cons.mpr ⟨?_, Memory.holdsAt_writeList _ _ _⟩
    rw [Memory.read_writeList, if_neg (by omega)]
    exact hfirst

end Sys2Proof.Machine
end

section
/-! PROOF. A pass of DEC over a well-formed stream (spec/43_decoder.md R130 to R149): what DEC does with the bytes ahead
of it, one byte, one colour sequence, one run length, one run, one row and one stream at a time. With no turn pending
each step is DEC's while it is BUSY (log 5). -/

namespace Sys2Proof.Machine

/-- No turn is pending, and the bytes `bs` of DEC's stream, and maybe more, are still to be read. -/
structure Ahead (s : State) (bs : List Byte) : Prop where
  turns : s.turns = []
  inLen_le : s.dec.inLen ≤ s.cfg.streamCap
  room : s.dec.p + bs.length ≤ s.dec.inLen
  bytes : SpaceHolds s .decStrm s.dec.p bs

theorem Ahead.of_append {s : State} {bs cs : List Byte} (h : Ahead s (bs ++ cs)) : Ahead s bs := by
  have hroom := h.room
  rw [List.length_append] at hroom
  exact ⟨h.turns, h.inLen_le, by omega, (spaceHolds_append.mp h.bytes).1⟩

/-- What is ahead once DEC has read some of it, whatever it has painted. -/
theorem Ahead.drop {s : State} {bs cs : List Byte} (h : Ahead s (bs ++ cs)) {d : Dec} {g : Memory}
    (hlen : d.inLen = s.dec.inLen) (hp : d.p = s.dec.p + bs.length) : Ahead { s with dec := d, grid := g } cs := by
  have hroom := h.room
  rw [List.length_append] at hroom
  refine ⟨h.turns, hlen.trans_le h.inLen_le, ?room, ?bytes⟩
  case room => show d.p + cs.length ≤ d.inLen; omega
  case bytes => exact hp ▸ (spaceHolds_append.mp h.bytes).2

theorem Ahead.tail {s : State} {b : Byte} {bs : List Byte} (h : Ahead s (b :: bs)) {d : Dec}
    (hlen : d.inLen = s.dec.inLen) (hp : d.p = s.dec.p + 1) : Ahead { s with dec := d } bs :=
  Ahead.drop (bs := [b]) h hlen hp

theorem Ahead.p_lt {s : State} {b : Byte} {bs : List Byte} (h : Ahead s (b :: bs)) : s.dec.p < s.dec.inLen := by
  have hroom := h.room
  rw [List.length_cons] at hroom
  omega

/-- The byte ahead is the one DEC fetches (R131). -/
theorem Ahead.fetchByte {s : State} {b : Byte} {bs : List Byte} (h : Ahead s (b :: bs)) : fetchByte s = .ok b := by
  have hbyte : s.byteAt .decStrm s.dec.p = b := (spaceHolds_cons.mp h.bytes).1
  exact hbyte ▸ fetchByte_of_lt (h.p_lt.trans_le h.inLen_le)

/-- The byte ahead is the one DEC executes (R131). -/
theorem Ahead.step_eq_exec {s : State} {b : Byte} {bs : List Byte} (h : Ahead s (b :: bs))
    (hb : s.dec.status = .busy) : step s = exec (decodeByte b) s := by
  rw [step_of_dec_busy h.turns hb, decTurn_of_fetch hb h.p_lt.ne h.fetchByte]

/-! ### One byte in SCAN -/

theorem Ahead.byteFollows {s : State} {b c : Byte} {bs : List Byte} (h : Ahead s (b :: c :: bs)) :
    s.dec.byteFollows = true := by
  have hroom := h.room
  simp only [List.length_cons] at hroom
  exact Dec.byteFollows_eq_true.mpr (by omega)

/-- The byte after the one at the scan position is what the lookahead reads (R133). -/
theorem Ahead.load_next {s : State} {b c : Byte} {bs : List Byte} (h : Ahead s (b :: c :: bs)) :
    s.load .decStrm (s.dec.p + 1) = .ok c := by
  have hroom := h.room
  have hcap := h.inLen_le
  simp only [List.length_cons] at hroom
  refine State.load_eq_ok.mpr ⟨show s.dec.p + 1 < s.cfg.streamCap by omega, ?_⟩
  exact (spaceHolds_cons.mp (spaceHolds_cons.mp h.bytes).2).1

/-- A byte that is no trigger is passed over (R134). -/
theorem step_passOver {s : State} {b : Byte} {bs : List Byte} (h : Ahead s (b :: bs)) (hd : DecIn s .scan)
    (hline : b ≠ 0x81) (hpaint : b ≠ 0x40) : step s = .next { s with dec := s.dec.passOver } := by
  obtain ⟨hline', hpaint', -, -⟩ := decodeByte_eq_control b
  rw [h.step_eq_exec hd.1, exec_scan hd, if_neg (hline'.not.mpr hline), if_neg (hpaint'.not.mpr hpaint)]
  rfl

/-- TOOL_LINE is a trigger where a byte follows, and is passed over at the end of the stream (R133, R137). -/
theorem step_toolLine {s : State} {bs : List Byte} (h : Ahead s (0x81 :: bs)) (hd : DecIn s .scan) :
    step s = .next { s with dec := if s.dec.byteFollows then s.dec.trigger else s.dec.passOver } := by
  obtain ⟨hline, -⟩ := decodeByte_eq_control 0x81
  rw [h.step_eq_exec hd.1, exec_scan hd, if_pos (hline.mpr rfl), scanToolLine_eq]

/-- ADVANCE_Y_PAINT is a trigger unless TOOL_NONE follows (R133, R140). -/
theorem step_advancePaint {s : State} {c : Byte} {bs : List Byte} (h : Ahead s (0x40 :: c :: bs)) (hd : DecIn s .scan) :
    step s = .next { s with dec := if c = 0x80 then s.dec.passOver else s.dec.trigger } := by
  obtain ⟨-, hpaint, -⟩ := decodeByte_eq_control 0x40
  rw [h.step_eq_exec hd.1, exec_scan hd, hpaint.mpr rfl, if_neg nofun, if_pos rfl, scanAdvancePaint,
    if_pos h.byteFollows, h.load_next]
  dsimp only
  split <;> rfl

/-! ### The colour sequence -/

/-- The first byte of an unpack is skipped (R86). -/
theorem step_skip {s : State} {b : Byte} {bs : List Byte} (h : Ahead s (b :: bs)) (hd : DecIn s .cSkip) :
    step s = .next { s with dec := s.dec.skip } := by
  rw [h.step_eq_exec hd.1, exec_cSkip hd, onDec]

/-- The second byte is the seed (R87). -/
theorem step_seed {s : State} {b : Byte} {bs : List Byte} (h : Ahead s (b :: bs)) (hd : DecIn s .cSeed) :
    step s = .next { s with dec := s.dec.seed b } := by
  rw [step_of_dec_busy h.turns hd.1, decTurn_of_fetch_in_cSeed hd h.p_lt.ne h.fetchByte]

/-- A byte before COLOUR_END is appended to the accumulator, and COLOUR_END ends the unpack (R88, R89). -/
theorem step_cAcc {s : State} {b : Byte} {bs : List Byte} (h : Ahead s (b :: bs)) (hd : DecIn s .cAcc) :
    step s = .next { s with dec := if b = 0x83 then s.dec.endColour else s.dec.accumulate b } := by
  rw [step_of_dec_busy h.turns hd.1, decTurn_of_fetch_in_cAcc hd h.p_lt.ne h.fetchByte]

/-- The bytes of an unpack before COLOUR_END, all appended to the accumulator (R88). -/
theorem runSteps_accumulate {s : State} {bs : List Byte} (h : Ahead s bs) (hd : DecIn s .cAcc)
    (hend : ∀ b ∈ bs, b ≠ 0x83) :
    runSteps bs.length s = .next { s with dec := { s.dec with
      p := s.dec.p + bs.length, acc := bs.foldl accumulate s.dec.acc } } := by
  induction bs generalizing s with
  | nil => rfl
  | cons b bs ih =>
    obtain ⟨hb, hbs⟩ := List.forall_mem_cons.mp hend
    have hstep := step_cAcc h hd
    rw [if_neg hb] at hstep
    have htail : Ahead { s with dec := s.dec.accumulate b } bs := h.tail rfl rfl
    refine (runSteps_succ hstep).trans ((ih htail hd hbs).trans ?_)
    simp [Dec.accumulate, Nat.add_assoc, Nat.add_comm]

/-- No data byte is one of the control bytes (R64, R72). -/
theorem dataByte_toNat_ge (g : Byte) : 0xC0 ≤ (dataByte g).toNat := by
  revert g
  decide +kernel

theorem dataByte_ne {b : Byte} (hb : b.toNat < 0xC0) (g : Byte) : dataByte g ≠ b := by
  rintro rfl
  exact absurd (dataByte_toNat_ge g) (by omega)

/-- The byte of a packed sample that gives the seed (R82, R87). -/
def packSeed (v : Byte) : Byte := dataByte (tokenGroup (token v) 24)

/-- The bytes of a packed sample between the seed and COLOUR_END (R82). -/
def packGroups (v : Byte) : List Byte :=
  [dataByte (tokenGroup (token v) 18), dataByte (tokenGroup (token v) 12), dataByte (tokenGroup (token v) 6),
   Vocab.alpha]

/-- A packed sample, cut as the unpacker reads it: the byte skipped, the seed, the groups, COLOUR_END (R82, R86). -/
theorem pack_eq (v : Byte) :
    pack v = dataByte (tokenGroup (token v) 30) :: packSeed v :: (packGroups v ++ [Vocab.colourEnd]) := rfl

/-- No group of a packed sample ends the unpack early (R91). -/
theorem ne_colourEnd_of_mem_packGroups {v b : Byte} (hb : b ∈ packGroups v) : b ≠ Vocab.colourEnd := by
  simp only [packGroups, List.mem_cons, List.not_mem_nil, or_false] at hb
  rcases hb with rfl | rfl | rfl | rfl
  case inr.inr.inr => decide
  all_goals exact dataByte_ne (by decide) _

/-- What a packed sample leaves in the accumulator (R87, R88). -/
def unpacked (v : Byte) : Word := (packGroups v).foldl accumulate (seedOf (packSeed v))

/-- The sample taken from it is the one that was packed (R89, R92). -/
theorem sampleOf_unpacked (v : Byte) : sampleOf (unpacked v) = v := by
  revert v
  decide +kernel

/-- DEC's registers once it has read the seven bytes of the packed sample `v` (R89). -/
def Dec.unpack (d : Dec) (v : Byte) : Dec :=
  { d with p := d.p + 7, phase := .runLen, acc := unpacked v, colour := v, runlen := 0 }

/-- The seven bytes of a packed sample, read after a trigger, unpack to the sample (R86 to R89, R92). -/
theorem runSteps_pack {s : State} {v : Byte} (h : Ahead s (pack v)) (hd : DecIn s .cSkip) :
    runSteps 7 s = .next { s with dec := s.dec.unpack v } := by
  rw [pack_eq] at h
  have h1 : Ahead { s with dec := s.dec.skip } _ := h.tail rfl rfl
  have h2 : Ahead { s with dec := s.dec.skip.seed (packSeed v) } _ := h1.tail rfl rfl
  have h3 : Ahead { s with dec := { s.dec with p := s.dec.p + 6, phase := .cAcc, acc := unpacked v } } _ :=
    h2.drop rfl rfl
  calc runSteps 7 s
      = runSteps 6 { s with dec := s.dec.skip } := runSteps_succ (step_skip h hd)
    _ = runSteps 5 { s with dec := s.dec.skip.seed (packSeed v) } := runSteps_succ (step_seed h1 ⟨hd.1, rfl⟩)
    _ = runSteps 1 { s with dec := { s.dec with p := s.dec.p + 6, phase := .cAcc, acc := unpacked v } } :=
      runSteps_add (j := 4) (k := 1)
        (runSteps_accumulate h2.of_append ⟨hd.1, rfl⟩ fun _ => ne_colourEnd_of_mem_packGroups)
    _ = runSteps 0 _ := runSteps_succ (step_cAcc h3 ⟨hd.1, rfl⟩)
    _ = .next _ := by
      rw [runSteps_zero, if_pos rfl, Dec.endColour, sampleOf_unpacked]
      rfl

/-! ### The run length -/

/-- A byte of value at most 31 is `RUN` of its value (R62, R65). -/
theorem decodeByte_of_le {b : Byte} (hb : b.toNat ≤ 31) : ∃ n, decodeByte b = .run n ∧ chunkValue n = b.toNat := by
  refine ⟨b.extractLsb' 0 5, if_pos ((runMask_iff_range b).mpr hb), ?_⟩
  rw [chunkValue, BitVec.extractLsb'_toNat]
  simp; omega

/-- A run-length byte adds its value (R145). -/
theorem step_addRun {s : State} {b : Byte} {bs : List Byte} (h : Ahead s (b :: bs)) (hd : DecIn s .runLen)
    (hb : b.toNat ≤ 31) : step s = .next { s with dec := s.dec.addRun b.toNat } := by
  obtain ⟨n, hn, hvalue⟩ := decodeByte_of_le hb
  rw [h.step_eq_exec hd.1, hn, ← hvalue]
  rcases exec_runLen hd (.run n) with ⟨m, hm, hexec⟩ | ⟨hterm, -⟩ | ⟨hne, -⟩
  · obtain rfl : n = m := Instr.run.inj hm
    exact hexec
  · exact absurd hterm (by simp)
  · exact absurd rfl (hne n)

/-- Run-length bytes add up (R145). -/
theorem runSteps_addRun {s : State} {bs : List Byte} (h : Ahead s bs) (hd : DecIn s .runLen)
    (hle : ∀ b ∈ bs, b.toNat ≤ 31) :
    runSteps bs.length s = .next { s with dec := { s.dec with
      p := s.dec.p + bs.length, runlen := s.dec.runlen + (bs.map BitVec.toNat).sum } } := by
  induction bs generalizing s with
  | nil => rfl
  | cons b bs ih =>
    obtain ⟨hb, hbs⟩ := List.forall_mem_cons.mp hle
    have htail : Ahead { s with dec := s.dec.addRun b.toNat } bs := h.tail rfl rfl
    refine (runSteps_succ (step_addRun h hd hb)).trans ((ih htail hd hbs).trans ?_)
    simp [Dec.addRun, Nat.add_assoc, Nat.add_comm]

/-- DEC's registers once it has read the chunks of the length `l` (R145). -/
def Dec.measure (d : Dec) (l : Nat) : Dec := { d with p := d.p + (chunks l).length, runlen := l }

/-- The chunks of a length are read back as the length (R68, R105). -/
theorem runSteps_chunks {s : State} {l : Nat} (h : Ahead s (chunks l)) (hd : DecIn s .runLen)
    (hzero : s.dec.runlen = 0) :
    runSteps (chunks l).length s = .next { s with dec := s.dec.measure l } := by
  rw [runSteps_addRun h hd fun b hb => (toNat_of_mem_chunks hb).2, sum_chunks, hzero, Nat.zero_add]
  rfl

/-- A terminator paints the run where it is inside its row, and DEC scans on (R145 to R148). -/
theorem step_terminate {s : State} {bs : List Byte} (h : Ahead s (0x40 :: bs)) (hd : DecIn s .runLen)
    (hx : s.dec.x + s.dec.runlen ≤ s.cfg.w) (hy : s.dec.y < s.cfg.h) :
    step s = .next { s with
      grid := s.grid.writeRun (s.dec.cursorIndex s.cfg) s.dec.runlen s.dec.colour,
      dec := { s.dec.moveCursor s.cfg with phase := .scan } } := by
  have hin : ¬ s.dec.outOfBounds s.cfg = true := by
    rw [Dec.outOfBounds_eq_true]
    omega
  obtain ⟨-, hpaint, -⟩ := decodeByte_eq_control 0x40
  rw [h.step_eq_exec hd.1, exec_terminator (.inl (hpaint.mpr rfl)) hd, terminate, if_neg hin]

end Sys2Proof.Machine
end

section
/-! PROOF. DEC over the runs, the rows and the whole of a well-formed stream (spec/42_encoder.md R112,
spec/43_decoder.md R149, R150): it paints the image row by row and ends DONE. -/

namespace Sys2Proof.Machine

/-- A row of equal bytes is a list of bytes. -/
theorem Memory.writeRun_eq_writeList (m : Memory) (a n : Nat) (b : Byte) :
    m.writeRun a n b = m.writeList a (List.replicate n b) := by
  induction n generalizing m a with
  | zero => rfl
  | succ n ih => exact ih (m.write a b) (a + 1)

/-- Turns of DEC lead from `s` to `t`: they read the bytes `bs` and paint the samples `px` from the cursor on; nothing
else of the state changes but DEC's registers. -/
structure Decodes (s t : State) (bs px : List Byte) : Prop where
  reaches : ∃ k, runSteps k s = .next t
  frame : t = { s with dec := t.dec, grid := s.grid.writeList (s.dec.cursorIndex s.cfg) px }
  inLen : t.dec.inLen = s.dec.inLen
  p : t.dec.p = s.dec.p + bs.length
  cursor : t.dec.cursorIndex s.cfg = s.dec.cursorIndex s.cfg + px.length

theorem Decodes.cfg {s t : State} {bs px : List Byte} (h : Decodes s t bs px) : t.cfg = s.cfg := by rw [h.frame]

theorem Decodes.refl (s : State) : Decodes s s [] [] := ⟨⟨0, runSteps_zero s⟩, rfl, rfl, rfl, rfl⟩

theorem Decodes.trans {s t u : State} {bs cs px qx : List Byte} (h : Decodes s t bs px) (h' : Decodes t u cs qx) :
    Decodes s u (bs ++ cs) (px ++ qx) := by
  have hcfg := h.cfg
  obtain ⟨⟨j, hst⟩, hframe, hlen, hp, hcur⟩ := h
  obtain ⟨⟨k, htu⟩, hframe', hlen', hp', hcur'⟩ := h'
  rw [hcfg] at hframe' hcur'
  refine ⟨⟨j + k, (runSteps_add hst).trans htu⟩, ?frame, hlen'.trans hlen, ?p, ?cursor⟩
  case frame =>
    rw [Memory.writeList_append, ← hcur, hframe', hframe]
  case p => rw [hp', hp, List.length_append, Nat.add_assoc]
  case cursor => rw [hcur', hcur, List.length_append, Nat.add_assoc]

/-- A step of DEC that reads a byte and paints nothing. -/
theorem Decodes.of_step {s : State} {d : Dec} (b : Byte) (h : step s = .next { s with dec := d })
    (hlen : d.inLen = s.dec.inLen) (hp : d.p = s.dec.p + 1) (hx : d.x = s.dec.x) (hy : d.y = s.dec.y) :
    Decodes s { s with dec := d } [b] [] := by
  refine ⟨⟨1, (runSteps_succ h).trans (runSteps_zero _)⟩, rfl, hlen, hp, ?_⟩
  rw [Dec.cursorIndex, hx, hy]
  rfl

/-- What DEC has read is no longer ahead. -/
theorem Decodes.ahead {s t : State} {bs cs px : List Byte} (h : Decodes s t bs px) (ha : Ahead s (bs ++ cs)) :
    Ahead t cs := by
  rw [h.frame]
  exact ha.drop h.inLen h.p

/-! ### A run -/

/-- After a paint the cursor is as many cells further on as the run is long, at a row's end too (R147). -/
theorem Dec.cursorIndex_moveCursor (c : Config) (d : Dec) :
    (d.moveCursor c).cursorIndex c = d.cursorIndex c + d.runlen := by
  rw [Dec.cursorIndex, Dec.cursorIndex, Dec.moveCursor_x, Dec.moveCursor_y]
  split
  case isTrue hend => rw [Nat.add_mul]; omega
  case isFalse => omega

theorem paintSeq_eq (v : Byte) (l : Nat) : paintSeq v l = pack v ++ chunks l ++ [Vocab.advanceYPaint] := rfl

/-- A colour sequence and a run length, up to the terminator, paint their run (R86 to R89, R145 to R148). -/
theorem exists_decodes_run {s : State} {r : Run} (h : Ahead s (paintSeq r.sample r.len)) (hd : DecIn s .cSkip)
    (hx : s.dec.x + r.len ≤ s.cfg.w) (hy : s.dec.y < s.cfg.h) :
    ∃ t, Decodes s t (pack r.sample ++ chunks r.len) (List.replicate r.len r.sample) ∧ DecIn t .scan ∧
      t.dec.x = (if s.dec.x + r.len = s.cfg.w then 0 else s.dec.x + r.len) ∧
      t.dec.y = (if s.dec.x + r.len = s.cfg.w then s.dec.y + 1 else s.dec.y) := by
  rw [paintSeq, List.append_assoc] at h
  have hchunks : Ahead { s with dec := s.dec.unpack r.sample } (chunks r.len ++ [Vocab.advanceYPaint]) := h.drop rfl rfl
  have hterm : Ahead { s with dec := (s.dec.unpack r.sample).measure r.len } [Vocab.advanceYPaint] :=
    hchunks.drop rfl rfl
  have hcolour := runSteps_pack h.of_append hd
  have hlength := runSteps_chunks hchunks.of_append ⟨hd.1, rfl⟩ rfl
  have hpaint := step_terminate hterm ⟨hd.1, rfl⟩ hx hy
  have hrun := (runSteps_add hcolour).trans ((runSteps_add hlength).trans
    ((runSteps_succ hpaint).trans (runSteps_zero _)))
  refine ⟨_, ⟨⟨_, hrun⟩, ?frame, ?inLen, ?p, ?cursor⟩, ⟨?status, rfl⟩, Dec.moveCursor_x _ _, Dec.moveCursor_y _ _⟩
  case frame => rw [Memory.writeRun_eq_writeList]; rfl
  case inLen => exact Dec.moveCursor_inLen _ _
  case p =>
    rw [List.length_append, length_pack, ← Nat.add_assoc]
    exact Dec.moveCursor_p _ _
  case cursor =>
    rw [List.length_replicate]
    exact Dec.cursorIndex_moveCursor _ _
  case status => exact (congrArg UnitCtl.status (Dec.moveCursor_toUnitCtl _ _)).trans hd.1

/-! ### A row -/

/-- The wrap sequence without its TOOL_LINE: what DEC passes over at the end of a row (R69, R134). -/
def wrapHead : List Byte := [Vocab.toolNone, Vocab.targetXReset, Vocab.advanceYSkip]

/-- One row of a stream, with the TOOL_LINE before its runs in place of the one after its wrap: DEC begins a row at a
TOOL_LINE and comes to the next one (R134). -/
def rowLine (row : List Run) : List Byte :=
  Vocab.toolLine :: (row.flatMap (fun r => paintSeq r.sample r.len) ++ wrapHead)

theorem rowLine_append_toolLine (row : List Run) (bs : List Byte) :
    rowLine row ++ Vocab.toolLine :: bs = Vocab.toolLine :: (rowBytes row ++ bs) := by
  simp [rowLine, rowBytes, wrapSeq, wrapHead]

/-- A stream, cut before each TOOL_LINE. -/
theorem sketchBytes_eq_rowLines (rows : List (List Run)) :
    sketchBytes rows = rows.flatMap rowLine ++ [Vocab.toolLine] := by
  induction rows with
  | nil => rfl
  | cons row rows ih =>
    rw [List.flatMap_cons, List.append_assoc, ← ih]
    exact (rowLine_append_toolLine row (rows.flatMap rowBytes)).symm

/-- Bytes that are no triggers are passed over (R134). -/
theorem decodes_passOver {s : State} {bs : List Byte} (h : Ahead s bs) (hd : DecIn s .scan)
    (hbs : ∀ b ∈ bs, b ≠ 0x81 ∧ b ≠ 0x40) :
    Decodes s { s with dec := { s.dec with p := s.dec.p + bs.length } } bs [] := by
  induction bs generalizing s with
  | nil => exact Decodes.refl s
  | cons b bs ih =>
    obtain ⟨⟨hline, hpaint⟩, hrest⟩ := List.forall_mem_cons.mp hbs
    have hpass : Decodes s { s with dec := s.dec.passOver } [b] [] :=
      .of_step b (step_passOver h hd hline hpaint) rfl rfl rfl rfl
    have := hpass.trans (ih (h.tail rfl rfl) hd hrest)
    simpa [Dec.passOver, Nat.add_assoc, Nat.add_comm] using this

/-- The runs of a row and its wrap: each terminator but the last triggers the next run, the last is followed by
TOOL_NONE and passed over with the wrap (R133, R134, R140). -/
theorem exists_decodes_runs {s : State} {r : Run} {rs : List Run}
    (h : Ahead s ((r :: rs).flatMap (fun q => paintSeq q.sample q.len) ++ wrapHead)) (hd : DecIn s .cSkip)
    (hlen : ∀ q ∈ r :: rs, 1 ≤ q.len) (hsum : s.dec.x + ((r :: rs).map Run.len).sum = s.cfg.w)
    (hy : s.dec.y < s.cfg.h) :
    ∃ t, Decodes s t ((r :: rs).flatMap (fun q => paintSeq q.sample q.len) ++ wrapHead) (rowSamples (r :: rs)) ∧
      DecIn t .scan ∧ t.dec.x = 0 ∧ t.dec.y = s.dec.y + 1 := by
  induction rs generalizing s r with
  | nil =>
    simp only [List.flatMap_cons, List.flatMap_nil, List.append_nil, List.map_cons, List.map_nil, List.sum_cons,
      List.sum_nil, Nat.add_zero, rowSamples_cons, rowSamples_nil] at h hsum ⊢
    obtain ⟨t, hrun, hscan, hx', hy'⟩ := exists_decodes_run h.of_append hd hsum.le hy
    rw [if_pos hsum] at hx' hy'
    rw [paintSeq, List.append_assoc] at h ⊢
    have hterm := hrun.ahead h
    have hpass : Decodes t { t with dec := t.dec.passOver } [Vocab.advanceYPaint] [] :=
      .of_step _ (step_advancePaint hterm hscan) rfl rfl rfl rfl
    have hwrap := decodes_passOver (hpass.ahead hterm) hscan (by decide)
    have hrow := hrun.trans (hpass.trans hwrap)
    rw [List.nil_append, List.append_nil, List.append_assoc] at hrow
    exact ⟨_, hrow, hscan, hx', hy'⟩
  | cons q qs ih =>
    obtain ⟨-, hqs⟩ := List.forall_mem_cons.mp hlen
    have hq : 1 ≤ q.len := hqs q (by simp)
    rw [List.map_cons, List.sum_cons, ← Nat.add_assoc] at hsum
    have hinside : s.dec.x + r.len < s.cfg.w := by
      rw [List.map_cons, List.sum_cons] at hsum
      omega
    rw [List.flatMap_cons, List.append_assoc] at h
    obtain ⟨t, hrun, hscan, hx', hy'⟩ := exists_decodes_run h.of_append hd hinside.le hy
    rw [if_neg hinside.ne] at hx' hy'
    rw [paintSeq, List.append_assoc] at h
    have hterm := hrun.ahead h
    have htrigger : Decodes t { t with dec := t.dec.trigger } [Vocab.advanceYPaint] [] :=
      .of_step _ ((step_advancePaint hterm hscan).trans (by rw [if_neg (dataByte_ne (by decide) _)])) rfl rfl rfl rfl
    have hsum' : t.dec.trigger.x + ((q :: qs).map Run.len).sum = t.cfg.w := by
      rw [Dec.trigger_x, hx', hrun.cfg, hsum]
    have hy'' : t.dec.trigger.y < t.cfg.h := by rwa [Dec.trigger_y, hy', hrun.cfg]
    obtain ⟨u, hruns, hscan', hux, huy⟩ := ih (htrigger.ahead hterm) ⟨hscan.1, rfl⟩ hqs hsum' hy''
    have hrow := hrun.trans (htrigger.trans hruns)
    rw [← List.append_assoc, ← paintSeq_eq, List.nil_append, ← List.append_assoc] at hrow
    exact ⟨u, hrow, hscan', hux, huy.trans (congrArg (· + 1) hy')⟩

/-- A TOOL_LINE, the runs of a row and the wrap up to the next TOOL_LINE paint the row (R112, R137). -/
theorem exists_decodes_rowLine {s : State} {row : List Run} (h : Ahead s (rowLine row)) (hd : DecIn s .scan)
    (hrow : rowWf s.cfg row = true) (hw : 1 ≤ s.cfg.w) (hx : s.dec.x = 0) (hy : s.dec.y < s.cfg.h) :
    ∃ t, Decodes s t (rowLine row) (rowSamples row) ∧ DecIn t .scan ∧ t.dec.x = 0 ∧ t.dec.y = s.dec.y + 1 := by
  obtain ⟨hlen, hsum, -⟩ := rowWf_iff.mp hrow
  cases row with
  | nil => simp at hsum; omega
  | cons r rs =>
    have htrigger : Decodes s { s with dec := s.dec.trigger } [Vocab.toolLine] [] :=
      .of_step _ ((step_toolLine h hd).trans (by rw [if_pos h.byteFollows])) rfl rfl rfl rfl
    obtain ⟨t, hruns, hscan, htx, hty⟩ := exists_decodes_runs (htrigger.ahead h) ⟨hd.1, rfl⟩ hlen
      (show s.dec.x + _ = s.cfg.w by rw [hx, Nat.zero_add, hsum]) hy
    exact ⟨t, htrigger.trans hruns, hscan, htx, hty⟩

/-! ### A stream -/

/-- Rows are painted one below the other (R150). -/
theorem exists_decodes_rowLines {s : State} {rows : List (List Run)} (h : Ahead s (rows.flatMap rowLine))
    (hd : DecIn s .scan) (hrows : ∀ row ∈ rows, rowWf s.cfg row = true) (hw : 1 ≤ s.cfg.w) (hx : s.dec.x = 0)
    (hy : s.dec.y + rows.length ≤ s.cfg.h) :
    ∃ t, Decodes s t (rows.flatMap rowLine) (sketchSamples rows) ∧ DecIn t .scan ∧ t.dec.x = 0 ∧
      t.dec.y = s.dec.y + rows.length := by
  induction rows generalizing s with
  | nil => exact ⟨s, .refl s, hd, hx, rfl⟩
  | cons row rows ih =>
    obtain ⟨hrow, hrest⟩ := List.forall_mem_cons.mp hrows
    rw [List.length_cons] at hy ⊢
    rw [List.flatMap_cons] at h ⊢
    obtain ⟨t, hline, hscan, htx, hty⟩ := exists_decodes_rowLine h.of_append hd hrow hw hx (by omega)
    have hcfg := hline.cfg
    obtain ⟨u, hlines, hscan', hux, huy⟩ :=
      ih (hline.ahead h) hscan (by rwa [hcfg]) (by rwa [hcfg]) htx (by rw [hcfg, hty]; omega)
    exact ⟨u, hline.trans hlines, hscan', hux, by omega⟩

/-- A pass that comes to the end of the stream in SCAN is DONE (R132, R149). -/
theorem step_endOfScan {s : State} (hturns : s.turns = []) (hd : DecIn s .scan) (hp : s.dec.p = s.dec.inLen) :
    step s = .next { s with dec := { s.dec with toUnitCtl := s.dec.toUnitCtl.finish } } := by
  rw [step_of_dec_busy hturns hd.1, decTurn_of_end hd.1 hp, endOfStream, hd.2, onDec]

/-- A pass just started over a well-formed stream ends DONE at the end of the stream, with the image in GRID (R135,
R149, R150). -/
theorem runSteps_decStarted {s : State} {rows : List (List Run)} (hw : 1 ≤ s.cfg.w) (hturns : s.turns = [])
    (hs : DecStarted s) (hrows : rowsWf s.cfg rows = true) (hlen : s.dec.inLen = (sketchBytes rows).length)
    (hcap : s.dec.inLen ≤ s.cfg.streamCap) (hstream : SpaceHolds s .decStrm 0 (sketchBytes rows)) :
    ∃ k t, runSteps k s = .next t ∧ t.dec.status = .done ∧ t.dec.x = 0 ∧ t.dec.y = s.cfg.h ∧
      t.dec.p = s.dec.inLen ∧ HoldsAt t.grid 0 (sketchSamples rows) := by
  obtain ⟨hd, hp, hx, hy, -⟩ := hs
  obtain ⟨hcount, hwf⟩ : rows.length = s.cfg.h ∧ ∀ row ∈ rows, rowWf s.cfg row = true := by
    simpa [rowsWf] using hrows
  have hahead : Ahead s (rows.flatMap rowLine ++ [Vocab.toolLine]) := by
    rw [← sketchBytes_eq_rowLines]
    exact ⟨hturns, hcap, by omega, by rwa [hp]⟩
  rw [sketchBytes_eq_rowLines, List.length_append] at hlen
  obtain ⟨t, hlines, hscan, htx, hty⟩ := exists_decodes_rowLines hahead.of_append hd hwf hw hx (by omega)
  have hend : t.dec.p + 1 = t.dec.inLen := by rw [hlines.p, hlines.inLen, hp, hlen]; simp
  have hlast : Decodes t { t with dec := t.dec.passOver } [Vocab.toolLine] [] := by
    refine .of_step _ ((step_toolLine (hlines.ahead hahead) hscan).trans ?_) rfl rfl rfl rfl
    rw [if_neg (by rw [Dec.byteFollows_eq_true]; omega)]
  obtain ⟨k, hk⟩ := (hlines.trans hlast).reaches
  have hdone := step_endOfScan (s := { t with dec := t.dec.passOver }) (hlines.ahead hahead).turns hscan hend
  have hrun := (runSteps_add hk).trans ((runSteps_succ hdone).trans (runSteps_zero _))
  refine ⟨k + 1, _, hrun, rfl, htx, ?row, ?atEnd, ?grid⟩
  case row => exact hty.trans (by omega)
  case atEnd => exact hend.trans hlines.inLen
  case grid =>
    have hgrid : t.grid = s.grid.writeList 0 (sketchSamples rows) := by
      rw [hlines.frame, Dec.cursorIndex, hx, hy, Nat.zero_mul]
    exact hgrid ▸ Memory.holdsAt_writeList _ _ _

end Sys2Proof.Machine
end

section
/-! PROOF. The round trip (spec/42_encoder.md R115): ENC's stream is the well-formed stream of the image, and DEC paints
the image of a well-formed stream. -/

namespace Sys2Proof.Machine

/-- The state in which START_DEC leaves a block (R130). -/
def State.decStarted (s : State) : State := { s with dec := s.dec.start, grid := Memory.filled 0 0 s.cfg.nsamp }

theorem State.decStarted_isStarted (s : State) : DecStarted s.decStarted := by
  refine ⟨⟨rfl, rfl⟩, rfl, rfl, rfl, fun i hi => ?_⟩
  exact (Memory.read_filled _ _ _ _).trans (if_pos ⟨Nat.zero_le i, (Nat.zero_add _).symm ▸ hi⟩)

/-- START_DEC, on a stream memory and a GRID that no unit owns (R130). -/
theorem startDec_of_not_busy {s : State} (hb : s.dec.status ≠ .busy)
    (hshared : s.cfg.sharedStrm = false ∨ s.enc.status ≠ .busy) :
    startDec s = .next s.decStarted := by
  have howned : (s.cfg.sharedStrm && s.encBusy) = false := by
    rcases hshared with h | h <;> simp [State.encBusy, h]
  simp [startDec, State.decBusy, hb, howned, State.decStarted]

/-- START_ENC on an image and its pass end DONE, with the well-formed stream of the image in STRM (R100, R101, R109,
R114). -/
theorem exists_encoding {s : State} {img : List Byte} (hwf : s.cfg.wf) (hturns : s.turns = [])
    (henc : s.enc.status ≠ .busy) (hdec : s.dec.status ≠ .busy) (hlen : s.enc.srcLen = s.cfg.nsamp)
    (himg : SrcHolds s img) :
    ∃ s1 k t rows, startEnc s = .next s1 ∧ runSteps k s1 = .next t ∧ t.enc.status = .done ∧
      rowsWf s.cfg rows = true ∧ sketchSamples rows = img ∧ t.enc.outLen = (sketchBytes rows).length ∧
      t.enc.outLen ≤ s.cfg.streamCap ∧ HoldsAt t.encStrm 0 (sketchBytes rows) := by
  have hcap : 1 ≤ s.cfg.streamCap := by
    obtain ⟨-, -, -, -, hmax, -⟩ := hwf
    rw [outMax_eq] at hmax
    omega
  have hstart := startEnc_of_match henc hlen (.inr hdec) hcap
  have hstarted : EncStarted s.encStarted := ⟨rfl, rfl, rfl, rfl, rfl, rfl⟩
  have hpass : EncPass s.encStarted := .of_encStarted hwf hturns hdec hstarted
  obtain ⟨t, rows, ht, hbytes, -, -, hend, hrows, hsamples, hout, hstream⟩ := hpass.exists_stream hstarted himg
  obtain ⟨k, -, hrun⟩ := hbytes.reaches
  have hcfg : t.cfg = s.cfg := hbytes.cfg
  exact ⟨_, k, t, rows, hstart, hrun, by rw [ht.status, hcfg, hend]; exact if_pos rfl, hrows, hsamples, hout,
    hcfg ▸ ht.outLen_le_streamCap, hstream⟩

/-- START_DEC on a well-formed stream and its pass end DONE, with the image of the stream in GRID (R130, R135, R149). -/
theorem exists_decoding {s : State} {rows : List (List Run)} (hw : 1 ≤ s.cfg.w) (hturns : s.turns = [])
    (henc : s.enc.status ≠ .busy) (hdec : s.dec.status ≠ .busy) (hrows : rowsWf s.cfg rows = true)
    (hlen : s.dec.inLen = (sketchBytes rows).length) (hcap : s.dec.inLen ≤ s.cfg.streamCap)
    (hstream : SpaceHolds s .decStrm 0 (sketchBytes rows)) :
    ∃ s1 k t, startDec s = .next s1 ∧ runSteps k s1 = .next t ∧ t.dec.status = .done ∧ t.dec.x = 0 ∧
      t.dec.y = s.cfg.h ∧ t.dec.p = s.dec.inLen ∧ HoldsAt t.grid 0 (sketchSamples rows) := by
  obtain ⟨k, t, hrun, hdone⟩ :=
    runSteps_decStarted (s := s.decStarted) hw hturns s.decStarted_isStarted hrows hlen hcap hstream
  exact ⟨_, k, t, startDec_of_not_busy hdec (.inr henc), hrun, hdone⟩

/-- Settles O48: the encoding of the image is a well-formed stream of it, which any later state decodes. -/
theorem decodingAnEncodingReturnsTheImage : Obligations.DecodingAnEncodingReturnsTheImage := by
  intro s img hwf hturns henc hdec hlen himg
  obtain ⟨s1, k, t, rows, hstart, hrun, hdone, hrows, hsamples, hout, hcap, hstream⟩ :=
    exists_encoding hwf hturns henc hdec hlen himg
  refine ⟨s1, k, t, hstart, hrun, hdone, fun u hucfg huturns huenc hudec hin hsame => ?_⟩
  have hcopied : SpaceHolds u .decStrm 0 (sketchBytes rows) := by
    intro i hi
    rw [Nat.zero_add, hsame i (hout ▸ hi)]
    simpa using spaceHolds_of_holdsAt (sp := .encStrm) hstream i hi
  rw [← hucfg, ← hsamples, ← hin]
  exact exists_decoding (hucfg ▸ hwf.1) huturns huenc hudec (hucfg ▸ hrows) (hin.trans hout)
    (by rw [hin, hucfg]; exact hcap) hcopied

end Sys2Proof.Machine
end

section
/-! PROOF. DEC's turn at the end of the stream and in SCAN (spec/43_decoder.md R132 to R134). -/

namespace Sys2Proof.Machine

/-! ### The end of the stream -/

/-- The scan is over at the end of the stream (R132, R149). -/
theorem decTurn_of_end_in_scan {s : State} (hd : DecIn s .scan) (hp : s.dec.p = s.dec.inLen) :
    decTurn s = .next { s with dec := { s.dec with toUnitCtl := s.dec.toUnitCtl.finish } } := by
  rw [decTurn_of_end hd.1 hp, endOfStream, hd.2, onDec]

/-- A run length cut off by the end of the stream is malformed (R132, R145). -/
theorem decTurn_of_end_in_runLen {s : State} (hd : DecIn s .runLen) (hp : s.dec.p = s.dec.inLen) :
    decTurn s = .next { s with dec := s.dec.raise .malformedRunSequence s.dec.p } := by
  rw [decTurn_of_end hd.1 hp, endOfStream, hd.2]
  rfl

/-- A trigger has a byte after it, so DEC does not wait in C_SKIP at the end of the stream (R86, R132). -/
theorem DecOk.phase_ne_cSkip_of_end {s : State} (h : DecOk s) (hb : s.dec.status = .busy)
    (hp : s.dec.p = s.dec.inLen) : s.dec.phase ≠ .cSkip := by
  obtain ⟨-, -, -, -, -, -, -, -, -, -, hskip, -⟩ := h
  exact fun hph => (hskip hb hph).ne hp

/-- Settles O10, one lemma for each phase. -/
theorem endOfStreamByPhase : Obligations.EndOfStreamByPhase := by
  intro s hb hp
  refine ⟨fun hph => ?scan, fun ⟨_, _, _, hdec, _⟩ => ?notSkip, fun hph => ?colour, fun hph => ?runLen⟩
  case scan => exact decTurn_of_end_in_scan ⟨hb, hph⟩ hp
  case notSkip => exact hdec.phase_ne_cSkip_of_end hb hp
  case colour => exact decTurn_of_end_in_colour ⟨hb, rfl⟩ (.inr hph) hp
  case runLen => exact decTurn_of_end_in_runLen ⟨hb, hph⟩ hp

/-! ### A byte in SCAN -/

/-- Without a byte after it ADVANCE_Y_PAINT is passed over, and the lookahead is not read (R133). -/
theorem scanAdvancePaint_of_last {s : State} (h : ¬ s.dec.byteFollows = true) :
    scanAdvancePaint s = .next { s with dec := s.dec.passOver } := by
  rw [scanAdvancePaint, if_neg h, passOver, onDec]

/-- With a byte after it ADVANCE_Y_PAINT is a trigger unless that byte is TOOL_NONE (R133, R140). -/
theorem scanAdvancePaint_of_load {s : State} {n : Byte} (h : s.dec.byteFollows = true)
    (hn : s.load .decStrm (s.dec.p + 1) = .ok n) :
    scanAdvancePaint s = .next { s with dec := if n = 0x80 then s.dec.passOver else s.dec.trigger } := by
  rw [scanAdvancePaint, if_pos h, hn]
  dsimp only
  split <;> rfl

/-- In SCAN the fetched byte is TOOL_LINE, ADVANCE_Y_PAINT or a byte that is passed over (R133, R134). -/
theorem decTurn_of_fetch_in_scan {s : State} {b : Byte} (hd : DecIn s .scan) (hp : s.dec.p ≠ s.dec.inLen)
    (hf : fetchByte s = .ok b) :
    decTurn s = if b = 0x81 then scanToolLine s else if b = 0x40 then scanAdvancePaint s else passOver s := by
  obtain ⟨hline, hpaint, -, -⟩ := decodeByte_eq_control b
  rw [decTurn_of_fetch hd.1 hp hf, exec_scan hd]
  simp only [hline, hpaint]

/-- What triggers a paint (R133): with a byte after it, a TOOL_LINE or an ADVANCE_Y_PAINT not before TOOL_NONE. -/
theorem decTurn_of_trigger {s : State} {b : Byte} (hd : DecIn s .scan) (hp : s.dec.p ≠ s.dec.inLen)
    (hf : fetchByte s = .ok b) (hnext : s.dec.byteFollows = true)
    (hb : b = 0x81 ∨ (b = 0x40 ∧ ∃ n, s.load .decStrm (s.dec.p + 1) = .ok n ∧ n ≠ 0x80)) :
    decTurn s = .next { s with dec := s.dec.trigger } := by
  rw [decTurn_of_fetch_in_scan hd hp hf]
  rcases hb with rfl | ⟨rfl, n, hn, hne⟩
  · rw [if_pos rfl, scanToolLine_eq, if_pos hnext]
  · rw [if_neg (by decide), if_pos rfl, scanAdvancePaint_of_load hnext hn, if_neg hne]

/-- The last byte of the stream is passed over, whatever it is (R133). -/
theorem decTurn_of_last_in_scan {s : State} {b : Byte} (hd : DecIn s .scan) (hp : s.dec.p ≠ s.dec.inLen)
    (hf : fetchByte s = .ok b) (hlast : ¬ s.dec.byteFollows = true) :
    decTurn s = .next { s with dec := s.dec.passOver } := by
  rw [decTurn_of_fetch_in_scan hd hp hf, scanToolLine_eq, if_neg hlast, scanAdvancePaint_of_last hlast, passOver, onDec]
  simp only [ite_self]

/-- A byte that triggers nothing, wherever it stands, is passed over (R133, R134). -/
theorem decTurn_of_nonTrigger {s : State} {b : Byte} (hd : DecIn s .scan) (hp : s.dec.p ≠ s.dec.inLen)
    (hf : fetchByte s = .ok b)
    (hb : (b = 0x40 ∧ s.load .decStrm (s.dec.p + 1) = .ok 0x80) ∨ (b ≠ 0x81 ∧ b ≠ 0x40)) :
    decTurn s = .next { s with dec := s.dec.passOver } := by
  by_cases hnext : s.dec.byteFollows = true
  case neg => exact decTurn_of_last_in_scan hd hp hf hnext
  rw [decTurn_of_fetch_in_scan hd hp hf]
  rcases hb with ⟨rfl, hn⟩ | ⟨hline, hpaint⟩
  · rw [if_neg (by decide), if_pos rfl, scanAdvancePaint_of_load hnext hn, if_pos rfl]
  · rw [if_neg hline, if_neg hpaint, passOver, onDec]

/-- Settles O15: the end of the stream, a trigger, the last byte, any other byte. -/
theorem scanStepFollowsTheTriggerRule : Obligations.ScanStepFollowsTheTriggerRule := by
  intro s hd
  refine ⟨fun hp => ?atEnd, fun hp b hf => ⟨fun htrigger => ?trigger, fun hpass => ?pass⟩⟩
  case atEnd => exact decTurn_of_end_in_scan hd hp
  case trigger =>
    rw [← and_or_left] at htrigger
    obtain ⟨hnext, hb⟩ := htrigger
    exact decTurn_of_trigger hd hp hf (Dec.byteFollows_eq_true.mpr hnext) hb
  case pass =>
    rcases hpass with hlast | hb
    · exact decTurn_of_last_in_scan hd hp hf (Dec.byteFollows_eq_true.not.mpr hlast.not_gt)
    · exact decTurn_of_nonTrigger hd hp hf hb

end Sys2Proof.Machine
end

section
/-! PROOF. The bounds check of a terminator, and START_DEC (spec/43_decoder.md R130, R146). -/

namespace Sys2Proof.Machine

/-- A run that does not fit is not painted (R146). -/
theorem terminate_of_outOfBounds {s : State} (h : s.dec.outOfBounds s.cfg = true) :
    terminate s = .next { s with dec := s.dec.raise .outOfBoundsWrite s.dec.p } := by
  rw [terminate, if_pos h, raiseDec]

/-- An empty run inside a row leaves the cursor (R147). -/
theorem Dec.moveCursor_of_empty {c : Config} {d : Dec} (hrun : d.runlen = 0) (hx : d.x < c.w) :
    d.moveCursor c = d := by
  have hstay : d.x + d.runlen = d.x := by omega
  rw [Dec.moveCursor, hstay, if_neg hx.ne]

/-- A run of length 0 passes the bounds check anywhere, and only ends the run-length read (R146, R147). -/
theorem terminate_of_empty {s : State} (hrun : s.dec.runlen = 0) (hx : s.dec.x < s.cfg.w) :
    terminate s = .next { s with dec := { s.dec with phase := .scan } } := by
  have hin : ¬ s.dec.outOfBounds s.cfg = true := by
    rw [Dec.outOfBounds_eq_true]
    omega
  rw [terminate, if_neg hin, Dec.moveCursor_of_empty hrun hx, hrun, Memory.writeRun]

/-- Settles O24: both advance opcodes are terminators in RUNLEN. -/
theorem terminatorsCheckBounds : Obligations.TerminatorsCheckBounds := by
  intro i s hi hd
  rw [exec_terminator hi hd]
  refine ⟨fun hrun hout => ?outOfBounds, fun hrun hx => ?empty⟩
  case outOfBounds => exact terminate_of_outOfBounds (Dec.outOfBounds_eq_true.mpr ⟨hrun, hout⟩)
  case empty => exact terminate_of_empty hrun hx

/-- START_DEC while BUSY (R204). -/
theorem startDec_of_busy {s : State} (hb : s.dec.status = .busy) : startDec s = .next s := by
  rw [startDec, if_pos (State.decBusy_eq_true.mpr hb)]

/-- Settles O38: the pass begins in `State.decStarted`, whose GRID is all zeros. -/
theorem startDecBeginsAPass : Obligations.StartDecBeginsAPass := by
  intro s
  refine ⟨startDec_of_busy, fun hb hshared => ⟨s.decStarted, startDec_of_not_busy hb hshared, ?zeros, rfl⟩⟩
  case zeros =>
    obtain ⟨-, -, -, -, hgrid⟩ := s.decStarted_isStarted
    exact hgrid

end Sys2Proof.Machine
end

section
/-! PROOF. Raising a fault, and the error codes a step writes (spec/60_exceptions.md R172 to R177). -/

namespace Sys2Proof.Machine

/-- Settles O30. The unit's `raise` replaces the three registers of its `UnitCtl` and no other part of the state. -/
theorem raisingFreezesTheRest : Obligations.RaisingFreezesTheRest := by
  intro f n s
  refine ⟨?dec, ?enc⟩
  case dec => rw [raiseDec, Dec.raise, UnitCtl.raise]
  case enc => rw [raiseEnc, Enc.raise, UnitCtl.raise]

/-- The codes ENC's rules write: a START and a reset clear the code, and a START raises DimensionMismatch (R33, R101,
R176). -/
def encCodes : List ErrCode := [.none, .dimensionMismatch]

/-- The codes DEC's rules write: a START and a reset clear the code, and a pass raises three faults (R33, R130, R172,
R173, R175). -/
def decCodes : List ErrCode := [.none, .malformedColourSequence, .malformedRunSequence, .outOfBoundsWrite]

/-! ### Turns of the units -/

/-- An opcode raises a fault only in RUNLEN (R145, R146): the seven effects on DEC's registers alone and the paint keep
the code. -/
theorem exec_err {i : Instr} {s t : State} (h : exec i s = .next t) :
    t.enc = s.enc ∧ (t.dec.err = s.dec.err ∨ t.dec.err ∈ decCodes) := by
  obtain ⟨-, hcases⟩ := exec_next h
  rcases hcases with ⟨-, rfl⟩ | ⟨-, -, -, rfl⟩ | ⟨-, rfl⟩ | ⟨-, rfl⟩ | ⟨-, -, rfl⟩ | ⟨-, -, rfl⟩ | ⟨-, _, -, rfl⟩ |
    ⟨-, -, -, rfl⟩ | ⟨-, -, -, rfl⟩ | ⟨-, -, -, -, rfl⟩
  iterate 7 exact ⟨rfl, .inl rfl⟩
  · exact ⟨rfl, .inr (by simp [decCodes])⟩
  · exact ⟨rfl, .inl (by simp)⟩
  · exact ⟨rfl, .inr (by simp [decCodes])⟩

/-- The end of the stream ends the pass or cuts off a sequence (R132). -/
theorem endOfStream_err {s t : State} (h : endOfStream s = .next t) :
    t.enc = s.enc ∧ (t.dec.err = s.dec.err ∨ t.dec.err ∈ decCodes) := by
  rcases endOfStream_next h with ⟨-, rfl⟩ | ⟨-, rfl⟩ | ⟨-, rfl⟩
  · exact ⟨rfl, .inl rfl⟩
  · exact ⟨rfl, .inr (by simp [decCodes])⟩
  · exact ⟨rfl, .inr (by simp [decCodes])⟩

/-- DEC's turn writes no register of ENC, and no code but DEC's own. -/
theorem decTurn_err {s t : State} (h : decTurn s = .next t) :
    t.enc = s.enc ∧ (t.dec.err = s.dec.err ∨ t.dec.err ∈ decCodes) := by
  rcases decTurn_next h with ⟨-, rfl⟩ | ⟨-, -, hend⟩ | ⟨-, -, b, -, hexec⟩
  · exact ⟨rfl, .inl rfl⟩
  · exact endOfStream_err hend
  · exact exec_err hexec

/-- ENC's turn writes no register of DEC, and an iteration raises nothing (R102). -/
theorem encTurn_err {s t : State} (h : encTurn s = .next t) : t.dec = s.dec ∧ t.enc.err = s.enc.err := by
  rcases encTurn_next h with ⟨-, rfl⟩ | ⟨-, hiterate⟩
  · exact ⟨rfl, rfl⟩
  · obtain ⟨r, -, -, rfl⟩ := iterate_next hiterate
    exact ⟨rfl, Enc.afterRun_err ..⟩

/-! ### Turns of the host -/

/-- START_ENC clears the code or raises DimensionMismatch (R101, R176). -/
theorem startEnc_err {s t : State} (h : startEnc s = .next t) :
    t.dec = s.dec ∧ (t.enc.err = s.enc.err ∨ t.enc.err ∈ encCodes) := by
  rcases startEnc_next h with ⟨-, rfl⟩ | ⟨-, -, rfl⟩ | ⟨-, -, -, -, rfl⟩
  · exact ⟨rfl, .inl rfl⟩
  · exact ⟨rfl, .inr (by simp [encCodes])⟩
  · exact ⟨rfl, .inr (by simp [encCodes])⟩

/-- START_DEC clears the code (R130). -/
theorem startDec_err {s t : State} (h : startDec s = .next t) :
    t.enc = s.enc ∧ (t.dec.err = s.dec.err ∨ t.dec.err ∈ decCodes) := by
  rcases startDec_next h with ⟨-, rfl⟩ | ⟨-, -, rfl⟩
  · exact ⟨rfl, .inl rfl⟩
  · exact ⟨rfl, .inr (by simp [decCodes])⟩

/-- Of the host's register writes only the two STARTs touch a code (R28). -/
theorem hostWriteReg_err {r : HostReg} {v : Word} {s t : State} (h : hostWriteReg r v s = .next t) :
    (t.enc.err = s.enc.err ∨ t.enc.err ∈ encCodes) ∧ (t.dec.err = s.dec.err ∨ t.dec.err ∈ decCodes) := by
  rcases hostWriteReg_next h with ⟨-, -, hstart⟩ | ⟨-, -, hstart⟩ | ⟨-, -, rfl⟩ | ⟨-, -, -, rfl⟩ | rfl
  · obtain ⟨hdec, henc⟩ := startEnc_err hstart
    exact ⟨henc, .inl (by rw [hdec])⟩
  · obtain ⟨henc, hdec⟩ := startDec_err hstart
    exact ⟨.inl (by rw [henc]), hdec⟩
  all_goals exact ⟨.inl rfl, .inl rfl⟩

/-- The host changes a code by a START or by a reset (R180). -/
theorem hostTurn_err {c : HostCmd} {s t : State} (h : hostTurn c s = .next t) :
    (t.enc.err = s.enc.err ∨ t.enc.err ∈ encCodes) ∧ (t.dec.err = s.dec.err ∨ t.dec.err ∈ decCodes) := by
  rcases hostTurn_next h with ⟨r, v, -, hwrite⟩ | ⟨d, rfl⟩ | ⟨sp, a, b, -, -, -, rfl⟩ | ⟨-, rfl⟩
  · exact hostWriteReg_err hwrite
  · exact ⟨.inl rfl, .inl rfl⟩
  · exact ⟨.inl (by rw [State.setMem_enc]), .inl (by rw [State.setMem_dec])⟩
  · exact ⟨.inr List.mem_cons_self, .inr List.mem_cons_self⟩

/-! ### A step -/

/-- A step keeps each unit's code or writes one that the unit's rules write. -/
theorem step_err {s t : State} (h : step s = .next t) :
    (t.enc.err = s.enc.err ∨ t.enc.err ∈ encCodes) ∧ (t.dec.err = s.dec.err ∨ t.dec.err ∈ decCodes) := by
  rcases step_next h with ⟨l, -, henc⟩ | ⟨l, -, hdec⟩ | ⟨c, l, -, hhost⟩
  · obtain ⟨hkept, herr⟩ := encTurn_err henc
    exact ⟨.inl herr, .inl (by rw [hkept])⟩
  · obtain ⟨hkept, herr⟩ := decTurn_err hdec
    exact ⟨.inl (by rw [hkept]), herr⟩
  · exact hostTurn_err (s := { s with turns := l }) hhost

/-- A register that keeps its code, or takes one of a list without the code `f`, does not come to hold `f`. -/
theorem ErrCode.ne_of_kept_or_mem {codes : List ErrCode} {f e e' : ErrCode} (hf : f ∉ codes)
    (h : e' = e ∨ e' ∈ codes) (he : e ≠ f) : e' ≠ f := by
  rcases h with rfl | hmem
  · exact he
  · exact ne_of_mem_of_not_mem hmem hf

/-- Settles O32: UnsupportedExtension is no code of either unit's rules. -/
theorem unsupportedExtensionIsNeverRaised : Obligations.UnsupportedExtensionIsNeverRaised := by
  intro s t hstep
  obtain ⟨henc, hdec⟩ := step_err hstep
  exact ⟨ErrCode.ne_of_kept_or_mem (by decide) henc, ErrCode.ne_of_kept_or_mem (by decide) hdec⟩

end Sys2Proof.Machine
end

section
/-! PROOF. Decoding and encoding are inverse to each other, and each byte is of one row of the opcode table
(spec/30_encoding.md R60 to R62). -/

namespace Sys2Proof.Machine

/-- The byte of a well-formed opcode passes the tests of the opcode's own row and of no row before it: an operand field
comes back from the low bits, and a reserved opcode carries a byte of its range (R61, R62). -/
theorem decodeByte_encode {i : Instr} (hwf : i.wf = true) : decodeByte (encode i) = i := by
  cases i with
  | run n => revert n; decide +kernel
  | data g => revert g; decide +kernel
  | reserved20 b | reserved42 b | reserved44 b | reserved48 b | reserved50 b | reserved60 b | reserved86 b
  | reserved88 b | reserved90 b | reservedA0 b => revert b; decide +kernel
  | _ => rfl

/-- A reserved opcode is decoded only from a byte of its range (R62). -/
theorem wf_decodeByte (b : Byte) : (decodeByte b).wf = true := by
  revert b
  decide +kernel

/-- Settles O4: an opcode is one byte, so the bytes after it are left. -/
theorem decodeOfEncodeIsTheOpcode : Obligations.DecodeOfEncodeIsTheOpcode := by
  intro i rest hwf
  rw [decode, decodeByte_encode hwf]

/-- Settles O5. -/
theorem encodeOfDecodeIsTheByte : Obligations.EncodeOfDecodeIsTheByte :=
  fun b => ⟨encode_decodeByte b, wf_decodeByte b⟩

/-- Settles O7: each of the 256 bytes against each of the twenty masks. -/
theorem everyByteIsInOneRow : Obligations.EveryByteIsInOneRow := by
  unfold Obligations.EveryByteIsInOneRow
  decide +kernel

/-- Settles O8. The words are closed, so each is decoded by evaluation. -/
theorem writtenWordsDecode : Obligations.WrittenWordsDecode := by
  refine ⟨rfl, rfl, rfl, rfl, rfl, rfl, rfl, rfl, rfl, rfl, rfl, rfl⟩

end Sys2Proof.Machine
end

section
/-! PROOF. What a turn of DEC can do to a state, in five cases, and what follows for the scan position, for the length of
a decode and for the cells of GRID (spec/43_decoder.md R131, R132, R145 to R150). -/

namespace Sys2Proof.Machine

/-- The faults of a pass of DEC (R172, R173, R175). -/
def passFaults : List ErrCode := [.malformedColourSequence, .malformedRunSequence, .outOfBoundsWrite]

/-- The state after a terminator in RUNLEN whose bounds check passed (R147, R148). -/
def State.painted (s : State) : State :=
  { s with grid := s.grid.writeRun (s.dec.cursorIndex s.cfg) s.dec.runlen s.dec.colour,
           dec := { s.dec.moveCursor s.cfg with phase := .scan } }

/-- What a turn of DEC leads to: DEC rests, reads one byte on, paints a run, raises a fault or ends the pass (R131, R132,
R145 to R149, R188). -/
inductive DecMove (s : State) : State → Prop
  | rest (hb : s.dec.status ≠ .busy) : DecMove s s
  | read (ph : Phase) (acc : Word) (colour : Byte) (runlen : Nat) (hb : s.dec.status = .busy)
      (hp : s.dec.p ≠ s.dec.inLen) (hidle : ph ≠ .idle) (hskip : ph = .cSkip → s.dec.p + 1 < s.dec.inLen) :
      DecMove s { s with dec := { s.dec with
        p := s.dec.p + 1, phase := ph, acc := acc, colour := colour, runlen := runlen } }
  | paint (hd : DecIn s .runLen) (hterm : fetchByte s = .ok 0x40 ∨ fetchByte s = .ok 0x41)
      (hin : ¬ s.dec.outOfBounds s.cfg = true) : DecMove s s.painted
  | raise (f : ErrCode) (hf : f ∈ passFaults) (hb : s.dec.status = .busy) :
      DecMove s { s with dec := s.dec.raise f s.dec.p }
  | finish (hd : DecIn s .scan) : DecMove s { s with dec := { s.dec with toUnitCtl := s.dec.toUnitCtl.finish } }

/-- The end of the stream ends the pass or raises a fault (R132). -/
theorem endOfStream_move {s t : State} (hb : s.dec.status = .busy) (h : endOfStream s = .next t) : DecMove s t := by
  rcases endOfStream_next h with ⟨hph, rfl⟩ | ⟨-, rfl⟩ | ⟨-, rfl⟩
  · exact .finish ⟨hb, hph⟩
  · exact .raise _ (by simp [passFaults]) hb
  · exact .raise _ (by simp [passFaults]) hb

/-- An opcode reads on, paints or raises a fault (R131). -/
theorem exec_move {s t : State} {b : Byte} (hp : s.dec.p ≠ s.dec.inLen) (hf : fetchByte s = .ok b)
    (h : exec (decodeByte b) s = .next t) : DecMove s t := by
  obtain ⟨hb, hcases⟩ := exec_next h
  obtain ⟨-, hpaint, hskip, -⟩ := decodeByte_eq_control b
  rcases hcases with ⟨hph, rfl⟩ | ⟨-, -, hnext, rfl⟩ | ⟨-, rfl⟩ | ⟨-, rfl⟩ | ⟨-, -, rfl⟩ | ⟨hph, -, rfl⟩ |
    ⟨hph, n, -, rfl⟩ | ⟨-, -, -, rfl⟩ | ⟨hph, hterm, hin, rfl⟩ | ⟨-, -, -, -, rfl⟩
  case inr.inl => exact .read .cSkip _ _ _ hb hp nofun fun _ => Dec.byteFollows_eq_true.mp hnext
  case inr.inr.inr.inr.inr.inr.inr.inl => exact .raise _ (by simp [passFaults]) hb
  case inr.inr.inr.inr.inr.inr.inr.inr.inl =>
    rw [hpaint, hskip] at hterm
    have hbyte : fetchByte s = .ok 0x40 ∨ fetchByte s = .ok 0x41 := by rcases hterm with rfl | rfl <;> simp [hf]
    exact .paint ⟨hb, hph⟩ hbyte (by simp [hin])
  case inr.inr.inr.inr.inr.inr.inr.inr.inr => exact .raise _ (by simp [passFaults]) hb
  all_goals exact .read _ _ _ _ hb hp (by simp [*]) (by simp [*])

theorem decTurn_move {s t : State} (h : decTurn s = .next t) : DecMove s t := by
  rcases decTurn_next h with ⟨hb, rfl⟩ | ⟨hb, -, hend⟩ | ⟨-, hp, b, hf, hexec⟩
  · exact .rest hb
  · exact endOfStream_move hb hend
  · exact exec_move hp hf hexec

/-- Settles O44: of the five moves only a paint leaves `dec.p` and goes on. -/
theorem scanPositionMovesByOneOrStays : Obligations.ScanPositionMovesByOneOrStays := by
  intro s t h
  cases decTurn_move h with
  | rest hb => exact ⟨.inl rfl, fun _ hbusy => absurd hbusy hb⟩
  | read ph acc colour runlen => exact ⟨.inr rfl, fun hstay => absurd hstay (Nat.succ_ne_self _)⟩
  | paint hd hterm => exact ⟨.inl (Dec.moveCursor_p _ _), fun _ _ => ⟨hd.2, rfl, hterm⟩⟩
  | raise f => exact ⟨.inl rfl, nofun⟩
  | finish => exact ⟨.inl rfl, nofun⟩

/-! ### Every decode ends -/

/-- A pass of DEC that stands inside its stream, the turns its own. -/
structure DecPass (s : State) : Prop where
  turns : s.turns = []
  busy : s.dec.status = .busy
  phase : s.dec.phase ≠ .idle
  p_le : s.dec.p ≤ s.dec.inLen
  inLen_le : s.dec.inLen ≤ s.cfg.streamCap

/-- DEC always has its step inside a stream: the end of the stream has one in every phase of a pass, and neither the
fetch nor the lookahead leaves the memory (R131, R132). -/
theorem exists_decTurn {s : State} (hb : s.dec.status = .busy) (hph : s.dec.phase ≠ .idle)
    (hp : s.dec.p ≤ s.dec.inLen) (hcap : s.dec.inLen ≤ s.cfg.streamCap) : ∃ t, decTurn s = .next t := by
  by_cases hend : s.dec.p = s.dec.inLen
  case pos =>
    rw [decTurn_of_end hb hend, endOfStream]
    cases hcase : s.dec.phase with
    | idle => exact absurd hcase hph
    | scan | cSkip | cSeed | cAcc | runLen => exact ⟨_, rfl⟩
  case neg =>
    rw [decTurn_of_fetch hb hend (fetchByte_of_lt (by omega))]
    by_contra hstop
    rcases exec_stops (not_exists.mp hstop) with ⟨hoff, -⟩ | ⟨-, -, hnext, hout, -⟩
    · exact hoff.elim (absurd hb) hph
    · have := Dec.byteFollows_eq_true.mp hnext
      omega

/-- A bound on the turns DEC still has in its pass: two for each byte ahead, since a terminator is read twice, and one
or two at the end of the stream (R131). -/
def Dec.turnsLeft (d : Dec) : Nat := 2 * (d.inLen - d.p) + if d.phase = .runLen then 2 else 1

/-- A turn of DEC ends the pass, or the pass goes on with fewer turns left. -/
theorem DecPass.move {s t : State} (h : DecPass s) (hm : DecMove s t) :
    t.dec.status = .done ∨ t.dec.status = .fault ∨ (DecPass t ∧ t.dec.turnsLeft < s.dec.turnsLeft) := by
  obtain ⟨hturns, hb, hph, hp, hcap⟩ := h
  cases hm with
  | rest hrest => exact absurd hb hrest
  | read ph acc colour runlen _ hne hidle _ =>
    refine .inr (.inr ⟨⟨hturns, hb, hidle, by dsimp only; omega, hcap⟩, ?_⟩)
    simp only [Dec.turnsLeft]
    split <;> split <;> omega
  | paint hd =>
    refine .inr (.inr ⟨⟨hturns, by simpa [State.painted] using hb, nofun, ?_, ?_⟩, ?_⟩)
    · simpa [State.painted] using hp
    · simpa [State.painted] using hcap
    · simp [Dec.turnsLeft, State.painted, hd.2]
  | raise f => exact .inr (.inl rfl)
  | finish => exact .inl rfl

/-- A pass of DEC ends, by the bound on its turns. -/
theorem DecPass.ends {s : State} (h : DecPass s) :
    ∃ k, k ≤ s.dec.turnsLeft ∧ ∃ t, runSteps k s = .next t ∧ (t.dec.status = .done ∨ t.dec.status = .fault) := by
  induction hn : s.dec.turnsLeft using Nat.strong_induction_on generalizing s with
  | _ n ih =>
  obtain ⟨t, ht⟩ := exists_decTurn h.busy h.phase h.p_le h.inLen_le
  have hstep : step s = .next t := (step_of_dec_busy h.turns h.busy).trans ht
  have hone : 1 ≤ s.dec.turnsLeft := by unfold Dec.turnsLeft; split <;> omega
  rcases h.move (decTurn_move ht) with hdone | hfault | ⟨hpass, hless⟩
  · exact ⟨1, by omega, t, runSteps_succ hstep, .inl hdone⟩
  · exact ⟨1, by omega, t, runSteps_succ hstep, .inr hfault⟩
  · obtain ⟨k, hk, u, hrun, hend⟩ := ih _ (by omega) hpass rfl
    exact ⟨k + 1, by omega, u, (runSteps_succ hstep).trans hrun, hend⟩

/-- Settles O45: at the start of a pass `2N + 1` turns are left. -/
theorem everyDecodeTerminates : Obligations.EveryDecodeTerminates := by
  intro s hturns hd hp hcap
  have hpass : DecPass s := ⟨hturns, hd.1, by simp [hd.2], by omega, hcap⟩
  have hleft : s.dec.turnsLeft = 2 * s.dec.inLen + 1 := by simp [Dec.turnsLeft, hp, hd.2]
  exact hleft ▸ hpass.ends

/-! ### The cells of GRID -/

/-- The index of the cursor after a paint is further on by the run (R147). -/
theorem State.painted_cursorIndex (s : State) :
    s.painted.dec.cursorIndex s.cfg = s.dec.cursorIndex s.cfg + s.dec.runlen :=
  Dec.cursorIndex_moveCursor s.cfg s.dec

/-- Settles O46: only a paint changes a cell or the cursor, and its cells are those between the two cursors. -/
theorem paintingIsRowMajor : Obligations.PaintingIsRowMajor := by
  intro s t _ _ hzero h
  cases decTurn_move h with
  | rest | read | raise | finish => exact ⟨hzero, le_rfl, fun _ _ => rfl⟩
  | paint =>
    have hcursor := s.painted_cursorIndex
    have hread := Memory.read_writeRun s.grid (s.dec.cursorIndex s.cfg) s.dec.runlen s.dec.colour
    refine ⟨fun i hi hn => ?unpainted, hcursor ▸ Nat.le_add_right _ _, fun i hi => ?before⟩
    case unpainted =>
      replace hi : s.painted.dec.cursorIndex s.cfg ≤ i := hi
      exact (hread i).trans ((if_neg (by omega)).trans (hzero i (by omega) hn))
    case before => exact (hread i).trans (if_neg (by omega))

end Sys2Proof.Machine
end

section
/-! PROOF. The invariant (spec/10_state.md, spec/20_memory.md R55, R56, spec/42_encoder.md R117): each turn of ENC, of
DEC and of the host keeps it, so every step does; and from a state that meets it a BUSY unit always has its step. -/

namespace Sys2Proof.Machine

/-! ### What is written stays written -/

theorem loaded_write {m : Memory} {n : Nat} (h : Loaded m n) (a : Nat) (b : Byte) : Loaded (m.write a b) n := by
  intro i hi
  rw [Memory.read_write]
  split
  · rfl
  · exact h i hi

theorem loaded_writeRun {m : Memory} {n : Nat} (h : Loaded m n) (a k : Nat) (b : Byte) :
    Loaded (m.writeRun a k b) n := by
  induction k generalizing m a with
  | zero => exact h
  | succ k ih => exact ih (loaded_write h a b) (a + 1)

/-- Bytes appended to a loaded stream leave it loaded (R16). -/
theorem loaded_writeList {m : Memory} {n : Nat} (h : Loaded m n) (bs : List Byte) :
    Loaded (m.writeList n bs) (n + bs.length) := by
  intro i hi
  rw [Memory.read_writeList]
  split
  case isTrue hin => rw [List.getElem?_eq_getElem (by omega)]; rfl
  case isFalse hout => exact h i (by omega)

theorem loaded_filled (b : Byte) (n : Nat) : Loaded (Memory.filled b 0 n) n := by
  intro i hi
  rw [Memory.read_filled, if_pos ⟨i.zero_le, by omega⟩]
  rfl

/-! ### ENC's turn -/

/-- The block with DEC at reset and no turn pending: ENC's turn is the same in it. -/
def State.encAlone (s : State) : State := { s with dec := Dec.reset, turns := [] }

/-- A BUSY ENC is between two iterations of a pass. -/
theorem Inv.encPass {s : State} (h : Inv s) (hb : s.enc.status = .busy) : EncPass s.encAlone := by
  obtain ⟨hwf, -, ⟨-, -, -, hpos, hx, -, hbusy, -, -, hout, -⟩, -⟩ := h
  obtain ⟨hlt, -⟩ := hbusy hb
  exact ⟨hwf, rfl, nofun, hb.trans (if_neg hlt.ne).symm, hpos, hx, hlt.le, hout⟩

/-- The run at the pointer of a BUSY ENC is found, whatever SRC holds (R103). -/
theorem Inv.exists_findRun {s : State} (h : Inv s) (hb : s.enc.status = .busy) : ∃ r, findRun s = .ok r := by
  have hpass := h.encPass hb
  obtain ⟨-, -, ⟨-, -, -, -, -, -, hbusy, -⟩, -⟩ := h
  obtain ⟨r, hr, -⟩ := runScanFindsTheMaximalRun s hpass.x_lt (hpass.row_in_src (hbusy hb).1).1 hpass.pos
  exact ⟨r, hr⟩

/-- The iteration of a BUSY ENC completes, and leaves ENC between two iterations or at the end of its pass (R102). -/
theorem Inv.encTurn_of_findRun {s : State} (h : Inv s) (hb : s.enc.status = .busy) {r : Run}
    (hr : findRun s = .ok r) :
    1 ≤ r.len ∧ EncPass (s.encAlone.afterIteration r) ∧ encTurn s = .next (s.afterIteration r) := by
  have hpass := h.encPass hb
  obtain ⟨-, -, ⟨-, -, -, -, hx, -, hbusy, -⟩, -⟩ := h
  obtain ⟨hlen, hroom, -⟩ := findRun_ok hr
  have hnext := hpass.afterIteration (hbusy hb).1 hlen (show s.enc.x + r.len ≤ s.cfg.w by omega)
  have hcap : s.enc.outLen + (runBytes s.cfg s.enc.x r).length ≤ s.cfg.streamCap :=
    State.afterIteration_outLen s.encAlone r ▸ hnext.outLen_le_streamCap
  refine ⟨hlen, hnext, ?_⟩
  rw [encTurn, if_pos (State.encBusy_eq_true.mpr hb)]
  exact iterate_of_findRun hr hcap

theorem State.afterIteration_err (s : State) (r : Run) : (s.afterIteration r).enc.err = s.enc.err :=
  Enc.afterRun_err _ _ _

theorem State.afterIteration_errPos (s : State) (r : Run) : (s.afterIteration r).enc.errPos = s.enc.errPos :=
  Enc.afterRun_errPos _ _ _

theorem State.afterIteration_srcLen (s : State) (r : Run) : (s.afterIteration r).enc.srcLen = s.enc.srcLen :=
  Enc.afterRun_srcLen _ _ _

/-- An iteration of a BUSY ENC leaves ENC BUSY, or DONE at the last sample (R109). -/
theorem State.afterIteration_status {s : State} (hb : s.enc.status = .busy) (r : Run) :
    (s.afterIteration r).enc.status = if s.enc.pos + r.len = s.cfg.nsamp then .done else .busy := by
  rw [← hb]
  exact Enc.afterRun_status _ _ _

/-- An iteration keeps what the invariant says of ENC's registers (R110, R117). -/
theorem encOk_afterIteration {s : State} (h : EncOk s) (hb : s.enc.status = .busy) {r : Run}
    (hpass : EncPass (s.encAlone.afterIteration r)) : EncOk (s.afterIteration r) := by
  obtain ⟨⟨herr, herrPos, hbound⟩, hcode, hsrc, -, -, -, hbusy, -, -, -, hloaded⟩ := h
  obtain ⟨-, hout⟩ := hbusy hb
  have hnone : s.enc.err = .none := by simpa [hb] using herr
  have hstatus : (s.afterIteration r).enc.status =
    if (s.afterIteration r).enc.pos = s.cfg.nsamp then .done else .busy := hpass.status
  have hpos : (s.afterIteration r).enc.pos ≤ s.cfg.nsamp := hpass.pos_le
  have hcases : ((s.afterIteration r).enc.status = .done ∧ (s.afterIteration r).enc.pos = s.cfg.nsamp) ∨
      ((s.afterIteration r).enc.status = .busy ∧ (s.afterIteration r).enc.pos < s.cfg.nsamp) := by
    rw [hstatus]
    split
    case isTrue hend => exact .inl ⟨rfl, hend⟩
    case isFalse hinside => exact .inr ⟨rfl, by omega⟩
  have hbytes : 1 ≤ (s.afterIteration r).enc.outLen := by
    rw [s.afterIteration_outLen]
    omega
  refine ⟨?ctl, ?code, ?srcLen, hpass.pos, hpass.x_lt, hpass.y_le, ?busy, ?done, ?off, hpass.outLen_le, ?loaded⟩
  case ctl =>
    unfold CtlOk
    rw [s.afterIteration_err, s.afterIteration_errPos]
    exact ⟨by rcases hcases with ⟨e, -⟩ | ⟨e, -⟩ <;> simp [e, hnone], herrPos, hbound⟩
  case code => rwa [s.afterIteration_err]
  case srcLen => rwa [s.afterIteration_srcLen]
  case busy => exact fun hb' => ⟨(hcases.resolve_left fun h => by simp [h.1] at hb').2, hbytes⟩
  case done => exact fun hd => (hcases.resolve_right fun h => by simp [h.1] at hd).2
  case off => exact fun hoff => by rcases hcases with ⟨e, -⟩ | ⟨e, -⟩ <;> simp [e] at hoff
  case loaded =>
    rw [s.afterIteration_outLen]
    exact loaded_writeList hloaded _

theorem encTurn_keeps_inv {s t : State} (h : Inv s) (ht : encTurn s = .next t) : Inv t := by
  rcases encTurn_next ht with ⟨-, rfl⟩ | ⟨hb, -⟩
  case inl => exact h
  case inr =>
    obtain ⟨r, hr⟩ := h.exists_findRun hb
    obtain ⟨-, hpass, hturn⟩ := h.encTurn_of_findRun hb hr
    obtain rfl : s.afterIteration r = t := by rw [hturn] at ht; injection ht
    obtain ⟨hwf, ⟨hsrc, ⟨hcanon, hwithin⟩, hmems⟩, henc, hdec, hshared⟩ := h
    have hcap := hpass.outLen_le_streamCap
    rw [State.afterIteration_outLen] at hcap
    refine ⟨hwf, ⟨hsrc, ⟨Memory.wf_writeList _ _ hcanon, Memory.within_writeList _ _ hwithin hcap⟩, hmems⟩,
      encOk_afterIteration henc hb hpass, hdec, fun hs hboth => hshared hs ⟨hb, hboth.2⟩⟩

/-! ### DEC's turn -/

/-- A run that passed the bounds check ends in the raster, in its row, if it is not empty (R146). -/
theorem Dec.inBounds {c : Config} {d : Dec} (hin : ¬ d.outOfBounds c = true) :
    d.runlen = 0 ∨ (d.x + d.runlen ≤ c.w ∧ d.y < c.h) := by
  rw [Dec.outOfBounds_eq_true] at hin
  omega

/-- A paint keeps the cursor inside its row and its row at most `H` (R21, R147). -/
theorem Dec.moveCursor_inRaster {c : Config} {d : Dec} (hin : ¬ d.outOfBounds c = true) (hx : d.x < c.w)
    (hy : d.y ≤ c.h) : (d.moveCursor c).x < c.w ∧ (d.moveCursor c).y ≤ c.h := by
  have := Dec.inBounds hin
  rw [Dec.moveCursor_x, Dec.moveCursor_y]
  split <;> constructor <;> omega

/-- A paint stays in GRID (R43). -/
theorem within_painted {s : State} (h : s.grid.within s.cfg.nsamp = true) (hin : ¬ s.dec.outOfBounds s.cfg = true) :
    s.painted.grid.within s.cfg.nsamp = true := by
  rcases Dec.inBounds hin with hempty | ⟨hx, hy⟩
  · simpa [State.painted, hempty, Memory.writeRun] using h
  · refine Memory.within_writeRun _ _ _ h ?_
    have hend : s.dec.y * s.cfg.w + (s.dec.x + s.dec.runlen) ≤ s.cfg.nsamp := row_le hx hy
    unfold Dec.cursorIndex
    omega

/-- A move of DEC keeps what the invariant says of DEC and of GRID. -/
theorem DecMove.keeps {s t : State} (h : DecMove s t) (hm : MemOk s) (hd : DecOk s) : MemOk t ∧ DecOk t := by
  obtain ⟨⟨herr, herrPos, hbound⟩, hext, hdim, hlen, hp, hpLen, hx, hy, hidle, hdone, hskip, hgrid⟩ := id hd
  cases h with
  | rest => exact ⟨hm, hd⟩
  | read ph acc colour runlen hb hne hph hnext =>
    have := hpLen hb
    exact ⟨hm, ⟨herr, herrPos, hbound⟩, hext, hdim, hlen, by dsimp only; omega, fun _ => by dsimp only; omega, hx, hy,
      by simp [hph, hb], by simp [hb], fun _ => hnext, hgrid⟩
  | paint hdec _ hin =>
    obtain ⟨hsrc, henc, hstrm, hcanon, hwithin⟩ := hm
    obtain ⟨hx', hy'⟩ := Dec.moveCursor_inRaster hin hx hy
    have hgrid' := loaded_writeRun (hgrid (by simp [hdec.1])) (s.dec.cursorIndex s.cfg) s.dec.runlen s.dec.colour
    refine ⟨⟨hsrc, henc, hstrm, Memory.wf_writeRun _ _ _ hcanon, within_painted hwithin hin⟩, ?_⟩
    simp only [DecOk, State.painted, Dec.moveCursor_toUnitCtl, Dec.moveCursor_inLen, Dec.moveCursor_p]
    exact ⟨⟨herr, herrPos, hbound⟩, hext, hdim, hlen, hp, hpLen, hx', hy', by simp [hdec.1], by simp, nofun,
      fun _ => hgrid'⟩
  | raise f hf hb =>
    have hcodes : f ≠ .none ∧ f ≠ .unsupportedExtension ∧ f ≠ .dimensionMismatch := by revert f; decide
    obtain ⟨hnone, hnotExt, hnotDim⟩ := hcodes
    exact ⟨hm, ⟨by simp [hnone], fun e => absurd e hnone, Nat.mod_lt _ (by decide)⟩, hnotExt, hnotDim, hlen, hp, nofun,
      hx, hy, by simpa [hb] using hidle, nofun, nofun, fun _ => hgrid (by simp [hb])⟩
  | finish hdec =>
    have hnone : s.dec.err = .none := by simpa [hdec.1] using herr
    exact ⟨hm, ⟨by simp [hnone], herrPos, hbound⟩, hext, hdim, hlen, hp, nofun, hx, hy, by simp [hdec.2],
      fun _ => hdec.2, nofun, fun _ => hgrid (by simp [hdec.1])⟩

/-- A move of DEC changes only DEC's registers and GRID (R10). -/
theorem DecMove.frame {s t : State} (h : DecMove s t) : t = { s with dec := t.dec, grid := t.grid } := by
  cases h <;> rfl

/-- Only a BUSY DEC is BUSY after its turn. -/
theorem DecMove.busy {s t : State} (h : DecMove s t) (hb : t.dec.status = .busy) : s.dec.status = .busy := by
  cases h with
  | rest => exact hb
  | read _ _ _ _ hbusy => exact hbusy
  | paint hd => exact hd.1
  | raise _ _ hbusy => exact hbusy
  | finish hd => exact hd.1

theorem decTurn_keeps_inv {s t : State} (h : Inv s) (ht : decTurn s = .next t) : Inv t := by
  have hmove := decTurn_move ht
  obtain ⟨hwf, hm, henc, hdec, hshared⟩ := h
  obtain ⟨hm', hdec'⟩ := hmove.keeps hm hdec
  have hframe := hmove.frame
  have hcfg : t.cfg = s.cfg := by rw [hframe]
  have hencRegs : t.enc = s.enc := by rw [hframe]
  have hstrm : t.encStrm = s.encStrm := by rw [hframe]
  refine ⟨hcfg ▸ hwf, hm', ?_, hdec', ?_⟩
  · unfold EncOk
    rw [hcfg, hencRegs, hstrm]
    exact henc
  · rw [hcfg, hencRegs]
    exact fun hs ⟨he, hd⟩ => hshared hs ⟨he, hmove.busy hd⟩

/-! ### The host's turn -/

/-- ENC at the first sample, with at most TOOL_LINE emitted (R33, R101). -/
theorem encOk_of_origin {s : State} (hwf : s.cfg.wf) (hctl : CtlOk s.enc.toUnitCtl)
    (hcode : s.enc.err = .none ∨ s.enc.err = .dimensionMismatch) (hsrc : s.enc.srcLen < 2 ^ 32)
    (hpos : s.enc.pos = 0) (hx : s.enc.x = 0) (hy : s.enc.y = 0) (hdone : s.enc.status ≠ .done)
    (hout : s.enc.outLen = if s.enc.status = .busy then 1 else 0) (hloaded : Loaded s.encStrm s.enc.outLen) :
    EncOk s := by
  have ⟨hw, _, hh, _⟩ := hwf
  have hsamples : 0 < s.cfg.nsamp := Nat.mul_pos hw hh
  refine ⟨hctl, hcode, hsrc, by simp [hpos, hx, hy], by omega, by omega, fun hb => ?_, fun hd => absurd hd hdone,
    fun hoff => ⟨hpos, ?_⟩, ?_, hloaded⟩
  · rw [hout, if_pos hb, hpos]
    exact ⟨hsamples, le_rfl⟩
  · rw [hout, if_neg (by rcases hoff with e | e <;> simp [e])]
  · rw [hout]
    split <;> omega

/-- DEC at the first byte and the first cell (R33, R130). -/
theorem decOk_of_origin {s : State} (hwf : s.cfg.wf) (hctl : CtlOk s.dec.toUnitCtl) (herr : s.dec.err = .none)
    (hlen : s.dec.inLen ≤ s.cfg.streamCap) (hp : s.dec.p = 0) (hx : s.dec.x = 0) (hy : s.dec.y = 0)
    (hphase : s.dec.phase = .idle ↔ s.dec.status = .idle) (hdone : s.dec.status ≠ .done)
    (hskip : s.dec.phase ≠ .cSkip) (hgrid : s.dec.status ≠ .idle → Loaded s.grid s.cfg.nsamp) : DecOk s := by
  have ⟨hw, _⟩ := hwf
  exact ⟨hctl, by simp [herr], by simp [herr], hlen, by omega, fun _ => by omega, by omega, by omega, hphase,
    fun hd => absurd hd hdone, fun _ hs => absurd hs hskip, hgrid⟩

theorem ctlOk_reset : CtlOk UnitCtl.reset := by decide

/-- A reset block meets the invariant, whatever its configuration within the bounds (R33). -/
theorem inv_hardwareReset {s : State} (hwf : s.cfg.wf) : Inv (hardwareReset s) := by
  refine ⟨hwf, ⟨⟨rfl, rfl⟩, ⟨rfl, rfl⟩, ⟨rfl, rfl⟩, ⟨rfl, rfl⟩⟩, ?enc, ?dec, fun _ hboth => nomatch hboth.1⟩
  case enc => exact encOk_of_origin hwf ctlOk_reset (.inl rfl) (Nat.two_pow_pos 32) rfl rfl rfl nofun rfl nofun
  case dec =>
    exact decOk_of_origin hwf ctlOk_reset rfl (Nat.zero_le _) rfl rfl rfl (iff_of_true rfl rfl) nofun nofun (absurd rfl)

/-- Settles O3: the hardware's configuration is within the bounds. -/
theorem resetMeetsTheInvariant : Obligations.ResetMeetsTheInvariant :=
  inv_hardwareReset (s := State.reset) (by decide)

theorem startEnc_keeps_inv {s t : State} (h : Inv s) (ht : startEnc s = .next t) : Inv t := by
  obtain ⟨hwf, hm, ⟨-, -, hsrc, -⟩, hdec, hshared⟩ := id h
  rcases startEnc_next ht with ⟨-, rfl⟩ | ⟨-, -, rfl⟩ | ⟨-, -, hfree, hcap, rfl⟩
  case inl => exact h
  case inr.inl =>
    have hctl : CtlOk (s.enc.restart.raise .dimensionMismatch s.enc.srcLen).toUnitCtl :=
      ⟨by simp, nofun, Nat.mod_lt _ (by decide)⟩
    exact ⟨hwf, hm, encOk_of_origin hwf hctl (.inr rfl) hsrc rfl rfl rfl nofun rfl nofun, hdec,
      fun _ hboth => nomatch hboth.1⟩
  case inr.inr =>
    obtain ⟨hs, -, hmems⟩ := hm
    have hctl : CtlOk s.enc.restart.toUnitCtl.begin := ⟨by simp, fun _ => rfl, by simp⟩
    have hloaded : Loaded [(0, Vocab.toolLine)] 1 := by decide
    have hwithin : Memory.within s.cfg.streamCap [(0, Vocab.toolLine)] = true := by
      simp [Memory.within]; omega
    exact ⟨hwf, ⟨hs, ⟨rfl, hwithin⟩, hmems⟩,
      encOk_of_origin hwf hctl (.inl rfl) hsrc rfl rfl rfl nofun rfl hloaded, hdec,
      fun hs hboth => hfree ⟨hs, hboth.2⟩⟩

theorem startDec_keeps_inv {s t : State} (h : Inv s) (ht : startDec s = .next t) : Inv t := by
  obtain ⟨hwf, ⟨hs, he, hd, -⟩, henc, ⟨-, -, -, hlen, -⟩, hshared⟩ := id h
  rcases startDec_next ht with ⟨-, rfl⟩ | ⟨-, hfree, rfl⟩
  case inl => exact h
  case inr =>
    have hctl : CtlOk s.dec.start.toUnitCtl := ⟨by simp, fun _ => rfl, by simp⟩
    exact ⟨hwf, ⟨hs, he, hd, Memory.wf_filled _ _ _, Memory.within_filled _ _⟩, henc,
      decOk_of_origin hwf hctl rfl hlen rfl rfl rfl (by simp) nofun nofun fun _ => loaded_filled 0 s.cfg.nsamp,
      fun hs hboth => hfree ⟨hs, hboth.1⟩⟩

theorem hostWriteReg_keeps_inv {r : HostReg} {v : Word} {s t : State} (h : Inv s)
    (ht : hostWriteReg r v s = .next t) : Inv t := by
  rcases hostWriteReg_next ht with ⟨-, -, hstart⟩ | ⟨-, -, hstart⟩ | ⟨-, -, rfl⟩ | ⟨-, hidle, hv, rfl⟩ | rfl
  · exact startEnc_keeps_inv h hstart
  · exact startDec_keeps_inv h hstart
  · obtain ⟨hwf, hm, ⟨hctl, hcode, -, henc⟩, hdec, hshared⟩ := h
    exact ⟨hwf, hm, ⟨hctl, hcode, v.isLt, henc⟩, hdec, hshared⟩
  · obtain ⟨hwf, hm, henc, ⟨hctl, hext, hdim, -, hp, -, hx, hy, hph, hdone, -, hgrid⟩, hshared⟩ := h
    exact ⟨hwf, hm, henc, ⟨hctl, hext, hdim, hv, hp, fun hb => absurd hb hidle, hx, hy, hph, hdone,
      fun hb => absurd hb hidle, hgrid⟩, hshared⟩
  · exact h

/-- A byte the host writes leaves what was written in every memory written. -/
theorem loaded_setMem_write {s : State} {n : Nat} (sp : Space) (a : Nat) (b : Byte) :
    (Loaded s.encStrm n → Loaded (s.setMem sp ((s.memOf sp).write a b)).encStrm n) ∧
    (Loaded s.grid n → Loaded (s.setMem sp ((s.memOf sp).write a b)).grid n) := by
  cases sp with
  | src => exact ⟨id, id⟩
  | encStrm => exact ⟨fun h => loaded_write h a b, id⟩
  | grid => exact ⟨id, fun h => loaded_write h a b⟩
  | decStrm =>
    simp only [State.setMem, State.memOf]
    split
    · exact ⟨fun h => loaded_write h a b, id⟩
    · exact ⟨id, id⟩

theorem setMem_write_keeps_inv {s : State} (h : Inv s) {sp : Space} {a : Nat} (b : Byte) (ha : a < sp.size s.cfg) :
    Inv (s.setMem sp ((s.memOf sp).write a b)) := by
  obtain ⟨hwf, hm, henc, hdec, hshared⟩ := h
  have hm' := hm.setMem (Memory.wf_write a b (hm.memOf sp).1) (Memory.within_write b (hm.memOf sp).2 ha)
  unfold Inv EncOk DecOk at *
  simp only [State.setMem_cfg, State.setMem_enc, State.setMem_dec]
  obtain ⟨hctl, hcode, hsrc, hpos, hx, hy, hbusy, hdone, hidle, hout, hloaded⟩ := henc
  obtain ⟨dctl, dext, ddim, dlen, dp, dpLen, dx, dy, dph, ddone, dskip, hgrid⟩ := hdec
  exact ⟨hwf, hm',
    ⟨hctl, hcode, hsrc, hpos, hx, hy, hbusy, hdone, hidle, hout, (loaded_setMem_write sp a b).1 hloaded⟩,
    ⟨dctl, dext, ddim, dlen, dp, dpLen, dx, dy, dph, ddone, dskip,
      fun hd => (loaded_setMem_write sp a b).2 (hgrid hd)⟩, hshared⟩

theorem hostTurn_keeps_inv {c : HostCmd} {s t : State} (h : Inv s) (ht : hostTurn c s = .next t) : Inv t := by
  rcases hostTurn_next ht with ⟨r, v, -, hwrite⟩ | ⟨d, rfl⟩ | ⟨sp, a, b, -, -, ha, rfl⟩ | ⟨-, rfl⟩
  · exact hostWriteReg_keeps_inv h hwrite
  · exact h.of_hostData
  · exact setMem_write_keeps_inv h b ha
  · exact inv_hardwareReset h.1

/-- Settles O49: a step is a turn of ENC, of DEC or of the host, and each keeps the invariant. -/
theorem stepKeepsTheInvariant : Obligations.StepKeepsTheInvariant := by
  intro s t h hstep
  rcases step_next hstep with ⟨l, -, henc⟩ | ⟨l, -, hdec⟩ | ⟨c, l, -, hhost⟩
  · exact encTurn_keeps_inv h.of_turns henc
  · exact decTurn_keeps_inv h.of_turns hdec
  · exact hostTurn_keeps_inv h.of_turns hhost

end Sys2Proof.Machine
end

section
/-! PROOF. A turn of a unit: what it leaves unchanged, when there is one, and what an iteration of ENC emits
(spec/00_scope.md R9, spec/10_state.md R10, R16, R27, spec/42_encoder.md R102 to R114). -/

namespace Sys2Proof.Machine

/-! ### What a turn leaves unchanged -/

/-- ENC's turn changes ENC's registers and ENC's STRM (R10, R42). -/
theorem encTurn_frame {s t : State} (h : encTurn s = .next t) : t = { s with enc := t.enc, encStrm := t.encStrm } := by
  rcases encTurn_next h with ⟨-, rfl⟩ | ⟨-, hiterate⟩
  · rfl
  · obtain ⟨r, -, -, rfl⟩ := iterate_next hiterate
    rfl

/-- DEC's turn changes DEC's registers and GRID (R10, R43). -/
theorem decTurn_frame {s t : State} (h : decTurn s = .next t) : t = { s with dec := t.dec, grid := t.grid } :=
  (decTurn_move h).frame

/-- Settles O29, by the frames of the two turns. -/
theorem unitsDoNotInterfere : Obligations.UnitsDoNotInterfere :=
  fun _ _ => ⟨decTurn_frame, encTurn_frame⟩

theorem encTurn_of_not_busy {s : State} (hb : s.enc.status ≠ .busy) : encTurn s = .next s := by
  simp [encTurn, State.encBusy, hb]

theorem decTurn_of_not_busy {s : State} (hb : s.dec.status ≠ .busy) : decTurn s = .next s := by
  simp [decTurn, State.decBusy, hb]

/-- Settles O11. -/
theorem unitsNotBusyDoNothing : Obligations.UnitsNotBusyDoNothing :=
  fun _ => ⟨encTurn_of_not_busy, decTurn_of_not_busy⟩

/-! ### When there is a turn -/

/-- No opcode is refused: where it has no next state it stops with a fault of the model. -/
theorem exec_ne_refused (i : Instr) (s : State) (r : Refusal) : exec i s ≠ .refused r := by
  intro h
  rcases exec_stops (fun t ht => by cases h.symm.trans ht) with ⟨-, e⟩ | ⟨-, -, -, -, e⟩ <;> cases h.symm.trans e

theorem decTurn_ne_refused (s : State) (r : Refusal) : decTurn s ≠ .refused r := by
  intro h
  unfold decTurn at h
  split at h
  case isFalse => cases h
  split at h
  case isTrue =>
    unfold endOfStream at h
    split at h <;> cases h
  case isFalse =>
    split at h
    · cases h
    · exact exec_ne_refused _ _ _ h

theorem encTurn_ne_refused (s : State) (r : Refusal) : encTurn s ≠ .refused r := by
  intro h
  unfold encTurn iterate at h
  split at h
  case isFalse => cases h
  split at h
  · cases h
  · split at h <;> cases h

/-- A BUSY ENC has its step, and moves on by the run it finds (R9, R110). -/
theorem Inv.exists_encTurn {s : State} (h : Inv s) (hb : s.enc.status = .busy) :
    ∃ t, encTurn s = .next t ∧ s.enc.pos < t.enc.pos := by
  obtain ⟨r, hr⟩ := h.exists_findRun hb
  obtain ⟨hlen, -, hturn⟩ := h.encTurn_of_findRun hb hr
  exact ⟨_, hturn, by rw [State.afterIteration_pos]; omega⟩

/-- A BUSY DEC moves: it reads on, or its phase or its status changes (R131). -/
theorem DecMove.ne_of_busy {s t : State} (h : DecMove s t) (hb : s.dec.status = .busy) : t ≠ s := by
  intro heq
  cases h with
  | rest hrest => exact hrest hb
  | read => exact Nat.succ_ne_self _ (congrArg (fun u : State => u.dec.p) heq)
  | paint hd => cases (congrArg (fun u : State => u.dec.phase) heq).trans hd.2
  | raise => cases (congrArg (fun u : State => u.dec.status) heq).trans hb
  | finish => cases (congrArg (fun u : State => u.dec.status) heq).trans hb

/-- A BUSY DEC has its step (R9, R131). -/
theorem Inv.exists_decTurn {s : State} (h : Inv s) (hb : s.dec.status = .busy) :
    ∃ t, decTurn s = .next t ∧ t ≠ s := by
  obtain ⟨-, -, -, ⟨-, -, -, hcap, -, hp, -, -, hphase, -⟩, -⟩ := h
  obtain ⟨t, ht⟩ := Machine.exists_decTurn hb (by rw [Ne, hphase, hb]; exact nofun) (hp hb) hcap
  exact ⟨t, ht, (decTurn_move ht).ne_of_busy hb⟩

/-- Settles O52. -/
theorem busyUnitsAlwaysStep : Obligations.BusyUnitsAlwaysStep :=
  fun _ h => ⟨h.exists_encTurn, h.exists_decTurn⟩

/-- A turn that is taken from a good state leaves its memories good, as it keeps the invariant (R56). -/
theorem exists_turn_memOk {turn : State → Out} {s : State} (hkeeps : ∀ {t}, turn s = .next t → Inv t)
    (hturn : ∃ t, turn s = .next t) : ∃ t, turn s = .next t ∧ MemOk t := by
  obtain ⟨t, ht⟩ := hturn
  exact ⟨t, ht, (hkeeps ht).2.1⟩

/-- Settles O51: a unit that is not BUSY stays where it is, and a BUSY one has its step. -/
theorem unitsStayInTheirSpaces : Obligations.UnitsStayInTheirSpaces := by
  intro s
  refine ⟨encTurn_ne_refused s, decTurn_ne_refused s, fun h => ⟨?enc, ?dec⟩⟩
  case enc =>
    refine exists_turn_memOk (encTurn_keeps_inv h) ?_
    by_cases hb : s.enc.status = .busy
    · exact (h.exists_encTurn hb).imp fun _ ht => ht.1
    · exact ⟨s, encTurn_of_not_busy hb⟩
  case dec =>
    refine exists_turn_memOk (decTurn_keeps_inv h) ?_
    by_cases hb : s.dec.status = .busy
    · exact (h.exists_decTurn hb).imp fun _ ht => ht.1
    · exact ⟨s, decTurn_of_not_busy hb⟩

/-! ### The bytes ENC emits -/

/-- Settles O41: the iteration of the run that was found, register by register. -/
theorem iterationEmitsOneRun : Obligations.IterationEmitsOneRun := by
  intro s r h hb hr
  obtain ⟨-, -, hturn⟩ := h.encTurn_of_findRun hb hr
  exact ⟨_, hturn, ⟨Memory.holdsAt_writeList _ _ _, s.afterIteration_outLen r⟩, s.afterIteration_x r,
    s.afterIteration_y r, s.afterIteration_pos r, State.afterIteration_status hb r, s.afterIteration_srcLen r,
    s.afterIteration_err r, s.afterIteration_errPos r⟩

/-- Settles O42: the bytes of an iteration stand between the old and the new `enc.out_len`. -/
theorem encoderOnlyAppends : Obligations.EncoderOnlyAppends := by
  intro s t h
  rcases encTurn_next h with ⟨-, rfl⟩ | ⟨-, hiterate⟩
  case inl => exact ⟨le_rfl, fun _ _ => rfl⟩
  case inr =>
    obtain ⟨r, -, -, rfl⟩ := iterate_next hiterate
    have hout := s.afterIteration_outLen r
    refine ⟨(Nat.le_add_right _ _).trans_eq hout.symm, fun a ha => ?_⟩
    replace ha : a < s.enc.outLen ∨ (s.afterIteration r).enc.outLen ≤ a := ha
    exact (Memory.read_writeList _ _ _ _).trans (if_neg (by omega))

/-- Settles O43, by the pass of ENC over the image: it makes at most one turn for each sample. -/
theorem encoderProducesAWellFormedStream : Obligations.EncoderProducesAWellFormedStream := by
  intro s img hwf hturns hdec hstarted himg
  have hpass := EncPass.of_encStarted hwf hturns hdec hstarted
  obtain ⟨t, rows, ht, henc, htx, hty, hend, hrows, hsamples, hout, hstream⟩ := hpass.exists_stream hstarted himg
  obtain ⟨k, hk, hrun⟩ := henc.reaches
  have hdone : t.enc.status = .done := ht.status.trans (if_pos (hend.trans (by rw [henc.cfg])))
  exact ⟨k, by omega, t, rows, hrun, hdone, htx, hty, hend, hrows, hsamples, hout, hstream⟩

end Sys2Proof.Machine
end

section
/-! PROOF. The opcodes phase by phase, with every register of the next state written out (spec/43_decoder.md R134 to
R148, spec/41_colour_pack_unpack.md R86 to R94), and the step that runs them (R131). -/

namespace Sys2Proof.Machine

/-! ### SCAN -/

/-- Settles O12. -/
theorem nonTriggersArePassedOver : Obligations.NonTriggersArePassedOver := by
  intro i s hd hline hpaint
  rw [exec_scan hd, if_neg hline, if_neg hpaint]
  rfl

/-- Settles O13: a byte follows exactly where `dec.p + 1 < N`. -/
theorem toolLineTriggersIfAByteFollows : Obligations.ToolLineTriggersIfAByteFollows := by
  intro s hd
  rw [exec_scan hd, if_pos rfl, scanToolLine_eq]
  by_cases hnext : s.dec.p + 1 < s.dec.inLen
  · rw [if_pos (Dec.byteFollows_eq_true.mpr hnext), if_pos hnext]
    rfl
  · rw [if_neg (Dec.byteFollows_eq_true.not.mpr hnext), if_neg hnext, ← hd.2]
    rfl

/-- Settles O14: the last byte, then the two outcomes of the lookahead. -/
theorem advancePaintTriggersByLookahead : Obligations.AdvancePaintTriggersByLookahead := by
  intro s hd
  rw [exec_scan hd, if_neg nofun, if_pos rfl]
  refine ⟨fun hlast => ?last, fun hnext b hload => ?lookahead⟩
  case last => exact scanAdvancePaint_of_last (Dec.byteFollows_eq_true.not.mpr hlast.not_gt)
  case lookahead =>
    rw [scanAdvancePaint_of_load (Dec.byteFollows_eq_true.mpr hnext) hload]
    by_cases hb : b = 0x80
    · rw [if_pos hb, if_pos hb, ← hd.2]
      rfl
    · rw [if_neg hb, if_neg hb]
      rfl

/-! ### The colour phases -/

/-- Settles O16. -/
theorem everyOpcodeIsSkippedAfterATrigger : Obligations.EveryOpcodeIsSkippedAfterATrigger :=
  fun i _ hd => exec_cSkip hd i

/-- The seed is the byte modulo 4 (R87). -/
theorem seedOf_eq_ofNat (b : Byte) : seedOf b = BitVec.ofNat 32 (b.toNat % 4) := by
  revert b
  decide +kernel

/-- Settles O17. -/
theorem everyOpcodeSeedsTheAccumulator : Obligations.EveryOpcodeSeedsTheAccumulator := by
  intro i s hd
  rw [exec_cSeed hd, ← seedOf_eq_ofNat]
  rfl

/-- The group of a byte is the byte modulo 64 (R64). -/
theorem toNat_groupOf (b : Byte) : (groupOf b).toNat = b.toNat % 64 := by
  revert b
  decide +kernel

/-- Appending a group is a multiplication by 64 and an addition: the group lies below the shifted accumulator, and what
the shift moves out of the word is a multiple of 2^32 (R88). -/
theorem accumulate_eq_ofNat (acc : Word) (b : Byte) :
    accumulate acc b = BitVec.ofNat 32 (acc.toNat * 64 + b.toNat % 64) := by
  have hgroup : b.toNat % 64 < 2 ^ 6 := Nat.mod_lt _ (by decide)
  have hshift : acc.toNat <<< 6 % 2 ^ 32 = (acc.toNat % 2 ^ 26) <<< 6 := by
    simp only [Nat.shiftLeft_eq]
    omega
  apply BitVec.eq_of_toNat_eq
  rw [accumulate, BitVec.toNat_or, BitVec.toNat_shiftLeft, toNat_groupOf, hshift,
    ← Nat.shiftLeft_add_eq_or_of_lt hgroup, Nat.shiftLeft_eq, BitVec.toNat_ofNat]
  omega

/-- Settles O18. -/
theorem everyOtherOpcodeIsAccumulated : Obligations.EveryOtherOpcodeIsAccumulated := by
  intro i s hd hi
  rw [exec_cAcc hd, if_neg hi, ← accumulate_eq_ofNat]
  rfl

/-- The sample is the accumulator's second byte (R89). -/
theorem sampleOf_eq_ofNat (acc : Word) : sampleOf acc = BitVec.ofNat 8 (acc.toNat / 256) := by
  rw [sampleOf, BitVec.extractLsb', Nat.shiftRight_eq_div_pow]

/-- Settles O19. -/
theorem colourEndTakesTheSample : Obligations.ColourEndTakesTheSample := by
  intro s hd
  rw [exec_cAcc hd, if_pos rfl, ← sampleOf_eq_ofNat]
  rfl

/-! ### RUNLEN -/

theorem exec_run_runLen {s : State} (hd : DecIn s .runLen) (n : BitVec 5) :
    exec (.run n) s = .next { s with dec := s.dec.addRun (chunkValue n) } := by
  rcases exec_runLen hd (.run n) with ⟨m, hm, hexec⟩ | ⟨hterm, -⟩ | ⟨hne, -⟩
  · obtain rfl : n = m := Instr.run.inj hm
    exact hexec
  · exact absurd hterm (by simp)
  · exact absurd rfl (hne n)

/-- Settles O22: a chunk adds its value, not scaled. -/
theorem runAddsItsChunk : Obligations.RunAddsItsChunk :=
  fun n _ hd => exec_run_runLen hd n

theorem exec_other_runLen {i : Instr} {s : State} (hd : DecIn s .runLen) (hrun : ∀ n, i ≠ .run n)
    (hpaint : i ≠ .advanceYPaint) (hskip : i ≠ .advanceYSkip) : exec i s = malformedRun s := by
  rcases exec_runLen hd i with ⟨n, hn, -⟩ | ⟨hterm, -⟩ | ⟨-, -, -, hexec⟩
  · exact absurd hn (hrun n)
  · exact absurd hterm (by simp [hpaint, hskip])
  · exact hexec

/-- Settles O25. -/
theorem otherOpcodesFaultInARunLength : Obligations.OtherOpcodesFaultInARunLength :=
  fun _ _ hd hrun hpaint hskip => exec_other_runLen hd hrun hpaint hskip

/-- A run that fits is painted (R146, R147). -/
theorem terminate_of_inBounds {s : State} (h : ¬ s.dec.outOfBounds s.cfg = true) :
    terminate s = .next s.painted := if_neg h

/-- DEC's registers after a paint (R147, R148). -/
theorem State.painted_dec (s : State) :
    s.painted.dec = { s.dec with
      x := if s.dec.x + s.dec.runlen = s.cfg.w then 0 else s.dec.x + s.dec.runlen,
      y := if s.dec.x + s.dec.runlen = s.cfg.w then s.dec.y + 1 else s.dec.y,
      phase := .scan } := by
  unfold State.painted Dec.moveCursor
  split <;> rfl

/-- Settles O23: the run of both advance opcodes is painted where the bounds check passes. -/
theorem terminatorsPaintTheRun : Obligations.TerminatorsPaintTheRun := by
  intro i s hi hd hfits
  have hin : ¬ s.dec.outOfBounds s.cfg = true := by
    rw [Dec.outOfBounds_eq_true]
    omega
  refine ⟨s.painted, (exec_terminator hi hd).trans (terminate_of_inBounds hin), Memory.read_writeRun _ _ _ _, ?_⟩
  rw [← State.painted_dec]
  rfl

/-! ### The step -/

/-- Settles O9: DEC's turn is its own or the first of the list, and it runs the opcode of the byte it fetches. -/
theorem stepRunsTheDecodedOpcode : Obligations.StepRunsTheDecodedOpcode := by
  intro s b i hb hp hf hdecode
  obtain rfl : decodeByte b = i := by
    rw [decode] at hdecode
    injection hdecode with hpair
    injection hpair
  refine ⟨fun hturns => ?own, fun rest hturns => ?listed⟩
  case own => rw [step_of_dec_busy hturns hb, decTurn_of_fetch hb hp hf]
  case listed =>
    rw [step, hturns]
    exact decTurn_of_fetch (s := { s with turns := rest }) hb hp hf

/-! ### Unpacking and reading back -/

/-- Settles O34. -/
theorem unpackingAPackedSampleReturnsIt : Obligations.UnpackingAPackedSampleReturnsIt := by
  intro s v hturns hd hroom hcap hbytes
  exact ⟨_, runSteps_pack ⟨hturns, hcap, hroom, hbytes⟩ hd, rfl, ⟨hd.1, rfl⟩, rfl, rfl, rfl, rfl, rfl⟩

/-- Settles O36. -/
theorem chunksReadBackAsTheLength : Obligations.ChunksReadBackAsTheLength := by
  intro s l hturns hd hzero hroom hcap hbytes
  exact runSteps_chunks ⟨hturns, hcap, hroom, hbytes⟩ hd hzero

/-- Settles O47, by the pass of DEC over the stream. -/
theorem decoderPaintsAWellFormedStream : Obligations.DecoderPaintsAWellFormedStream := by
  intro s rows hwf hturns hstarted hrows hlen hcap hstream
  obtain ⟨k, t, hrun, hdone, hx, hy, hp, hgrid⟩ :=
    runSteps_decStarted hwf.1 hturns hstarted hrows hlen hcap hstream
  exact ⟨k, t, hrun, hdone, hx, hy, hp, length_sketchSamples_of_rowsWf hrows, hgrid⟩

end Sys2Proof.Machine
end

section
/-! PROOF. The frames of the opcodes, of a reset and of a step (spec/10_state.md R21 to R27, R32, spec/60_exceptions.md
R179 to R183, spec/70_reset_and_hazards.md R200). -/

namespace Sys2Proof.Machine

/-! ### Opcodes -/

/-- An opcode changes DEC's registers but the stream length, and GRID (R53, R183). -/
theorem exec_frame {i : Instr} {s t : State} (h : exec i s = .next t) :
    t = { s with dec := t.dec, grid := t.grid } ∧ t.dec.inLen = s.dec.inLen := by
  obtain ⟨-, hcases⟩ := exec_next h
  rcases hcases with ⟨-, rfl⟩ | ⟨-, -, -, rfl⟩ | ⟨-, rfl⟩ | ⟨-, rfl⟩ | ⟨-, -, rfl⟩ | ⟨-, -, rfl⟩ | ⟨-, _, -, rfl⟩ |
    ⟨-, -, -, rfl⟩ | ⟨-, -, -, rfl⟩ | ⟨-, -, -, -, rfl⟩
  case inr.inr.inr.inr.inr.inr.inr.inr.inl => exact ⟨rfl, Dec.moveCursor_inLen _ _⟩
  all_goals exact ⟨rfl, rfl⟩

/-- Settles O26: every field named is one that the frame keeps. -/
theorem opcodesLeaveEncAndStreams : Obligations.OpcodesLeaveEncAndStreams := by
  intro i s t h
  obtain ⟨hframe, hlen⟩ := exec_frame h
  rw [hframe]
  exact ⟨rfl, rfl, rfl, rfl, rfl, rfl, rfl, rfl, hlen⟩

/-- Settles O27, effect by effect: each register changes in the effects its clause leaves out. -/
theorem opcodesChangeOnlyTheirRegisters : Obligations.OpcodesChangeOnlyTheirRegisters := by
  intro i s t h
  obtain ⟨-, hcases⟩ := exec_next h
  rcases hcases with ⟨-, rfl⟩ | ⟨-, -, -, rfl⟩ | ⟨-, rfl⟩ | ⟨hph, rfl⟩ | ⟨hph, hi, rfl⟩ | ⟨hph, hi, rfl⟩ |
    ⟨hph, n, hi, rfl⟩ | ⟨hph, hi, -, rfl⟩ | ⟨hph, hi, -, rfl⟩ | ⟨hph, hi, -, -, rfl⟩
  iterate 3 exact ⟨fun _ => ⟨rfl, rfl⟩, fun _ => rfl, fun _ => rfl, fun _ _ => rfl, fun _ => rfl⟩
  · exact ⟨fun _ => ⟨rfl, rfl⟩, fun hnot => absurd (.inl hph) hnot, fun _ => rfl, fun _ _ => rfl, fun _ => rfl⟩
  · exact ⟨fun _ => ⟨rfl, rfl⟩, fun _ => rfl, fun hnot => absurd ⟨hph, hi⟩ hnot, fun hnot => absurd ⟨hph, hi⟩ hnot,
      fun _ => rfl⟩
  · exact ⟨fun _ => ⟨rfl, rfl⟩, fun hnot => absurd (.inr ⟨hph, hi⟩) hnot, fun _ => rfl, fun _ _ => rfl, fun _ => rfl⟩
  · exact ⟨fun _ => ⟨rfl, rfl⟩, fun _ => rfl, fun _ => rfl, fun _ hnot => absurd ⟨hph, n, hi⟩ hnot, fun _ => rfl⟩
  · refine ⟨fun _ => ⟨rfl, rfl⟩, fun _ => rfl, fun _ => rfl, fun _ _ => rfl, fun hctl => ?_⟩
    rcases hctl with hne | ⟨n, rfl⟩
    · exact absurd hph hne
    · exact absurd hi (by simp)
  · exact ⟨fun hnot => absurd ⟨hph, hi⟩ hnot, fun _ => Dec.moveCursor_acc _ _, fun _ => Dec.moveCursor_colour _ _,
      fun _ _ => Dec.moveCursor_runlen _ _, fun _ => Dec.moveCursor_toUnitCtl _ _⟩
  · refine ⟨fun _ => ⟨rfl, rfl⟩, fun _ => rfl, fun _ => rfl, fun _ _ => rfl, fun hctl => ?_⟩
    rcases hctl with hne | ⟨n, rfl⟩
    · exact absurd hph hne
    · exact absurd rfl (hi n)

/-- An opcode leaves GRID, or it is a terminator in RUNLEN that paints its run. -/
theorem exec_grid {i : Instr} {s t : State} (h : exec i s = .next t) :
    t.grid = s.grid ∨
    ((s.dec.phase = .runLen ∧ (i = .advanceYPaint ∨ i = .advanceYSkip)) ∧ s.dec.outOfBounds s.cfg = false ∧
      t.grid = s.grid.writeRun (s.dec.cursorIndex s.cfg) s.dec.runlen s.dec.colour) := by
  obtain ⟨-, hcases⟩ := exec_next h
  rcases hcases with ⟨-, rfl⟩ | ⟨-, -, -, rfl⟩ | ⟨-, rfl⟩ | ⟨-, rfl⟩ | ⟨-, -, rfl⟩ | ⟨-, -, rfl⟩ | ⟨-, _, -, rfl⟩ |
    ⟨-, -, -, rfl⟩ | ⟨hph, hi, hin, rfl⟩ | ⟨-, -, -, -, rfl⟩
  case inr.inr.inr.inr.inr.inr.inr.inr.inl => exact .inr ⟨⟨hph, hi⟩, hin, rfl⟩
  all_goals exact .inl rfl

/-- Settles O28: where a run is painted, a cell outside it is not written. -/
theorem opcodesPaintOnlyTheRun : Obligations.OpcodesPaintOnlyTheRun := by
  intro i s t h
  rcases exec_grid h with hgrid | ⟨hterm, hin, hgrid⟩ <;> rw [hgrid]
  · exact ⟨fun _ _ _ _ => rfl, fun _ _ => rfl⟩
  · refine ⟨fun base hbase a ha => ?outside, fun hnot => ?unpainted⟩
    case outside => rw [Memory.read_writeRun, if_neg (by omega)]
    case unpainted =>
      rcases hnot with hnot | hout
      · exact absurd hterm hnot
      · exact absurd (hin.symm.trans hout) Bool.false_ne_true

/-! ### Reset -/

/-- Settles O2. -/
theorem hardwareResetFromAnyState : Obligations.HardwareResetFromAnyState := by
  intro s rest hturns
  have hstep : step s = .next (hardwareReset { s with turns := rest }) := by
    rw [step, hturns]
    rfl
  exact ⟨_, hstep, rfl, rfl, rfl, fun sp a => by rw [hardwareReset_memOf, Memory.read_nil], ⟨rfl, rfl, rfl, rfl⟩,
    encTurn_of_not_busy nofun, decTurn_of_not_busy nofun⟩

/-! ### The configuration -/

theorem startEnc_cfg {s t : State} (h : startEnc s = .next t) : t.cfg = s.cfg := by
  rcases startEnc_next h with ⟨-, rfl⟩ | ⟨-, -, rfl⟩ | ⟨-, -, -, -, rfl⟩ <;> rfl

theorem startDec_cfg {s t : State} (h : startDec s = .next t) : t.cfg = s.cfg := by
  rcases startDec_next h with ⟨-, rfl⟩ | ⟨-, -, rfl⟩ <;> rfl

theorem hostTurn_cfg {c : HostCmd} {s t : State} (h : hostTurn c s = .next t) : t.cfg = s.cfg := by
  rcases hostTurn_next h with ⟨r, v, -, hwrite⟩ | ⟨d, rfl⟩ | ⟨sp, a, b, -, -, -, rfl⟩ | ⟨-, rfl⟩
  · rcases hostWriteReg_next hwrite with ⟨-, -, hstart⟩ | ⟨-, -, hstart⟩ | ⟨-, -, rfl⟩ | ⟨-, -, -, rfl⟩ | rfl
    · exact startEnc_cfg hstart
    · exact startDec_cfg hstart
    all_goals rfl
  · rfl
  · exact State.setMem_cfg _ _ _
  · rfl

/-- Settles O50: neither a unit nor the host writes the configuration. -/
theorem stepKeepsTheConfiguration : Obligations.StepKeepsTheConfiguration := by
  intro s t h
  rcases step_next h with ⟨l, -, henc⟩ | ⟨l, -, hdec⟩ | ⟨c, l, -, hhost⟩
  · rw [encTurn_frame henc]
  · rw [decTurn_frame hdec]
  · exact (hostTurn_cfg hhost :)

/-! ### Faults -/

/-- Of the host's register writes only the START of a unit touches its status and its error registers (R28, R180). -/
theorem hostWriteReg_ctl {r : HostReg} {v : Word} {s t : State} (h : hostWriteReg r v s = .next t) :
    (¬(r = .decCtrlStart ∧ v.getLsbD 0 = true) → t.dec.toUnitCtl = s.dec.toUnitCtl) ∧
    (¬(r = .encCtrlStart ∧ v.getLsbD 0 = true) → t.enc.toUnitCtl = s.enc.toUnitCtl) := by
  rcases hostWriteReg_next h with ⟨hr, hv, hstart⟩ | ⟨hr, hv, hstart⟩ | ⟨-, -, rfl⟩ | ⟨-, -, -, rfl⟩ | rfl
  · exact ⟨fun _ => by rw [(startEnc_err hstart).1], fun hnot => absurd ⟨hr, hv⟩ hnot⟩
  · exact ⟨fun hnot => absurd ⟨hr, hv⟩ hnot, fun _ => by rw [(startDec_err hstart).1]⟩
  all_goals exact ⟨fun _ => rfl, fun _ => rfl⟩

/-- A turn that issues no START, where a START is a write with bit 0 set to the register `start`, by name or by bus
address, does not write 1 to that register (log 14, log 23). -/
theorem not_start_of_restarts {restarts : Config → Turn → Bool} {start r : HostReg} {c : Config} {cmd : HostCmd}
    {v : Word} (hname : restarts c (.host (.writeReg start v)) = v.getLsbD 0)
    (hbus : ∀ a, restarts c (.host (.busWrite a v)) = (decide (regAt c a = some start) && v.getLsbD 0))
    (hc : cmd = .writeReg r v ∨ ∃ a, cmd = .busWrite a v ∧ regAt c a = some r)
    (hnot : restarts c (.host cmd) = false) : ¬(r = start ∧ v.getLsbD 0 = true) := by
  rintro ⟨rfl, hv⟩
  rcases hc with rfl | ⟨a, rfl, hr⟩
  · rw [hname, hv] at hnot
    cases hnot
  · rw [hbus, hv, decide_eq_true hr] at hnot
    cases hnot

/-- A host turn that is no START of a unit and no reset leaves the unit's status and error registers (R180; log 14,
log 23). -/
theorem hostTurn_ctl {c : HostCmd} {s t : State} (h : hostTurn c s = .next t) :
    (restartsDec s.cfg (.host c) = false → t.dec.toUnitCtl = s.dec.toUnitCtl) ∧
    (restartsEnc s.cfg (.host c) = false → t.enc.toUnitCtl = s.enc.toUnitCtl) := by
  rcases hostTurn_next h with ⟨r, v, hc, hwrite⟩ | ⟨d, rfl⟩ | ⟨sp, a, b, -, -, -, rfl⟩ | ⟨rfl, -⟩
  · obtain ⟨hdec, henc⟩ := hostWriteReg_ctl hwrite
    exact ⟨fun hnot => hdec (not_start_of_restarts (restarts := restartsDec) rfl (fun _ => rfl) hc hnot),
      fun hnot => henc (not_start_of_restarts (restarts := restartsEnc) rfl (fun _ => rfl) hc hnot)⟩
  · exact ⟨fun _ => rfl, fun _ => rfl⟩
  · exact ⟨fun _ => by rw [State.setMem_dec], fun _ => by rw [State.setMem_enc]⟩
  · exact ⟨nofun, nofun⟩

/-- Settles O31: a unit in FAULT has no turn of its own, and the other unit's turn writes none of its registers. -/
theorem faultsAreSticky : Obligations.FaultsAreSticky := by
  intro s t h
  rcases step_next h with ⟨l, -, henc⟩ | ⟨l, -, hdec⟩ | ⟨c, l, hturns, hhost⟩
  · refine ⟨fun _ _ => by rw [encTurn_frame henc], fun hfault _ => ?_⟩
    rw [encTurn_of_not_busy (s := { s with turns := l }) (by simp [hfault])] at henc
    injection henc with henc
    rw [← henc]
  · refine ⟨fun hfault _ => ?_, fun _ _ => by rw [decTurn_frame hdec]⟩
    rw [decTurn_of_not_busy (s := { s with turns := l }) (by simp [hfault])] at hdec
    injection hdec with hdec
    rw [← hdec]
  · obtain ⟨hdec, henc⟩ := hostTurn_ctl hhost
    have hhead : s.turns.head? = some (.host c) := by rw [hturns]; rfl
    exact ⟨fun _ hnot => hdec (hnot _ hhead), fun _ hnot => henc (hnot _ hhead)⟩

end Sys2Proof.Machine
end

section
/-! PROOF. Any interleaving of the two units gives one result (spec/60_exceptions.md R186): with two stream memories
each unit's turn reads and writes only its own side of the block, so neighbouring turns commute. -/

namespace Sys2Proof.Machine

/-- Change the next state of an outcome. -/
def Out.mapNext (f : State → State) : Out → Out
  | .next s => .next (f s)
  | .fault r => .fault r
  | .refused r => .refused r

/-- The block with another ENC: its registers and its STRM, and the turns to come. -/
def State.withEncSide (s : State) (e : Enc) (m : Memory) (l : List Turn) : State :=
  { s with enc := e, encStrm := m, turns := l }

/-- The block with another DEC: its registers and GRID, and the turns to come. -/
def State.withDecSide (s : State) (d : Dec) (g : Memory) (l : List Turn) : State :=
  { s with dec := d, grid := g, turns := l }

/-! ### ENC's turn does not see DEC's side -/

section
variable (s : State) (d : Dec) (g : Memory) (l : List Turn)

theorem scanRun_withDecSide (v : Byte) (a n : Nat) : scanRun (s.withDecSide d g l) v a n = scanRun s v a n := by
  have hload : ∀ i, (s.withDecSide d g l).load .src i = s.load .src i := fun _ => rfl
  induction n generalizing a with
  | zero => rfl
  | succ n ih => simp only [scanRun, hload, ih]

theorem findRun_withDecSide : findRun (s.withDecSide d g l) = findRun s := by
  have hload : ∀ i, (s.withDecSide d g l).load .src i = s.load .src i := fun _ => rfl
  simp only [findRun, hload, scanRun_withDecSide]
  rfl

end

theorem encTurn_withDecSide {s t : State} (h : encTurn s = .next t) (d : Dec) (g : Memory) (l : List Turn) :
    encTurn (s.withDecSide d g l) = .next (t.withDecSide d g l) := by
  rcases encTurn_next h with ⟨hb, rfl⟩ | ⟨hb, hiterate⟩
  case inl => exact encTurn_of_not_busy hb
  case inr =>
    obtain ⟨r, hr, hcap, rfl⟩ := iterate_next hiterate
    rw [encTurn, if_pos ((State.encBusy_eq_true (s := s.withDecSide d g l)).mpr hb)]
    exact iterate_of_findRun ((findRun_withDecSide s d g l).trans hr) hcap

/-! ### DEC's turn does not see ENC's side -/

section
variable {s : State} (e : Enc) (m : Memory) (l : List Turn)

theorem load_decStrm_withEncSide (h : s.cfg.sharedStrm = false) (a : Nat) :
    (s.withEncSide e m l).load .decStrm a = s.load .decStrm a := by
  simp [State.load, State.byteAt, State.memOf, State.unwritten, State.withEncSide, h]

theorem endOfStream_withEncSide :
    endOfStream (s.withEncSide e m l) = Out.mapNext (·.withEncSide e m l) (endOfStream s) := by
  have hphase : (s.withEncSide e m l).dec.phase = s.dec.phase := rfl
  unfold endOfStream
  rw [hphase]
  cases s.dec.phase <;> rfl

theorem scanAdvancePaint_withEncSide (h : s.cfg.sharedStrm = false) :
    scanAdvancePaint (s.withEncSide e m l) = Out.mapNext (·.withEncSide e m l) (scanAdvancePaint s) := by
  by_cases hnext : s.dec.byteFollows = true
  case neg =>
    rw [scanAdvancePaint_of_last hnext, scanAdvancePaint_of_last (s := s.withEncSide e m l) hnext]
    rfl
  have hload : (s.withEncSide e m l).load .decStrm ((s.withEncSide e m l).dec.p + 1) = s.load .decStrm (s.dec.p + 1) :=
    load_decStrm_withEncSide e m l h _
  cases hn : s.load .decStrm (s.dec.p + 1) with
  | ok b =>
    rw [scanAdvancePaint_of_load hnext hn, scanAdvancePaint_of_load (s := s.withEncSide e m l) hnext (hload.trans hn)]
    split <;> rfl
  | error f =>
    rw [scanAdvancePaint, scanAdvancePaint, if_pos hnext, hload, hn]
    exact if_pos hnext

theorem terminate_withEncSide : terminate (s.withEncSide e m l) = Out.mapNext (·.withEncSide e m l) (terminate s) := by
  by_cases hout : s.dec.outOfBounds s.cfg = true
  · rw [terminate_of_outOfBounds hout, terminate_of_outOfBounds (s := s.withEncSide e m l) hout]
    rfl
  · rw [terminate_of_inBounds hout, terminate_of_inBounds (s := s.withEncSide e m l) hout]
    rfl

theorem exec_withEncSide (h : s.cfg.sharedStrm = false) (i : Instr) :
    exec i (s.withEncSide e m l) = Out.mapNext (·.withEncSide e m l) (exec i s) := by
  by_cases hb : s.dec.status = .busy
  case neg => rw [exec_not_enabled (.inl hb), exec_not_enabled (s := s.withEncSide e m l) (.inl hb)]; rfl
  cases hph : s.dec.phase with
  | idle => rw [exec_not_enabled (.inr hph), exec_not_enabled (s := s.withEncSide e m l) (.inr hph)]; rfl
  | scan =>
    rw [exec_scan ⟨hb, hph⟩, exec_scan (s := s.withEncSide e m l) ⟨hb, hph⟩]
    split
    · rw [scanToolLine_eq, scanToolLine_eq]; rfl
    · split
      · exact scanAdvancePaint_withEncSide e m l h
      · rfl
  | cSkip => rw [exec_cSkip ⟨hb, hph⟩, exec_cSkip (s := s.withEncSide e m l) ⟨hb, hph⟩]; rfl
  | cSeed => rw [exec_cSeed ⟨hb, hph⟩, exec_cSeed (s := s.withEncSide e m l) ⟨hb, hph⟩]; rfl
  | cAcc =>
    rw [exec_cAcc ⟨hb, hph⟩, exec_cAcc (s := s.withEncSide e m l) ⟨hb, hph⟩]
    split <;> rfl
  | runLen =>
    rcases exec_runLen ⟨hb, hph⟩ i with ⟨n, rfl, -⟩ | ⟨hi, -⟩ | ⟨hrun, hpaint, hskip, -⟩
    · rw [exec_run_runLen ⟨hb, hph⟩, exec_run_runLen (s := s.withEncSide e m l) ⟨hb, hph⟩]; rfl
    · rw [exec_terminator hi ⟨hb, hph⟩, exec_terminator (s := s.withEncSide e m l) hi ⟨hb, hph⟩]
      exact terminate_withEncSide e m l
    · rw [exec_other_runLen ⟨hb, hph⟩ hrun hpaint hskip,
        exec_other_runLen (s := s.withEncSide e m l) ⟨hb, hph⟩ hrun hpaint hskip]
      rfl

end

theorem decTurn_withEncSide {s t : State} (h : decTurn s = .next t) (hshared : s.cfg.sharedStrm = false) (e : Enc)
    (m : Memory) (l : List Turn) : decTurn (s.withEncSide e m l) = .next (t.withEncSide e m l) := by
  rcases decTurn_next h with ⟨hb, rfl⟩ | ⟨hb, hp, hend⟩ | ⟨hb, hp, b, hf, hexec⟩
  · exact decTurn_of_not_busy hb
  · rw [decTurn_of_end (s := s.withEncSide e m l) hb hp, endOfStream_withEncSide, hend]
    rfl
  · have hfetch : fetchByte (s.withEncSide e m l) = .ok b :=
      (load_decStrm_withEncSide e m l hshared s.dec.p).trans hf
    rw [decTurn_of_fetch (s := s.withEncSide e m l) hb hp hfetch, exec_withEncSide e m l hshared, hexec]
    rfl

/-! ### Neighbouring turns commute -/

/-- ENC's turn before DEC's can be taken after it. -/
theorem encTurn_after_decTurn {s u t : State} {l : List Turn} (hshared : s.cfg.sharedStrm = false)
    (henc : encTurn s = .next u) (hdec : decTurn { u with turns := l } = .next t) (l' : List Turn) :
    ∃ v, decTurn { s with turns := l' } = .next v ∧ encTurn { v with turns := l } = .next t := by
  obtain ⟨e, m, rfl⟩ : ∃ e m, u = { s with enc := e, encStrm := m } := ⟨_, _, encTurn_frame henc⟩
  obtain ⟨d, g, rfl⟩ : ∃ d g, t = { s with enc := e, encStrm := m, turns := l, dec := d, grid := g } :=
    ⟨_, _, decTurn_frame hdec⟩
  exact ⟨_, decTurn_withEncSide hdec hshared s.enc s.encStrm l', encTurn_withDecSide henc d g l⟩

/-- DEC's turn before ENC's can be taken after it. -/
theorem decTurn_after_encTurn {s u t : State} {l : List Turn} (hshared : s.cfg.sharedStrm = false)
    (hdec : decTurn s = .next u) (henc : encTurn { u with turns := l } = .next t) (l' : List Turn) :
    ∃ v, encTurn { s with turns := l' } = .next v ∧ decTurn { v with turns := l } = .next t := by
  obtain ⟨d, g, rfl⟩ : ∃ d g, u = { s with dec := d, grid := g } := ⟨_, _, decTurn_frame hdec⟩
  obtain ⟨e, m, rfl⟩ : ∃ e m, t = { s with dec := d, grid := g, turns := l, enc := e, encStrm := m } :=
    ⟨_, _, encTurn_frame henc⟩
  exact ⟨_, encTurn_withDecSide henc s.dec s.grid l', decTurn_withEncSide hdec hshared e m l⟩

/-! ### Runs of turns -/

/-- The turn of the agent that a list of turns names. -/
def Turn.move : Turn → State → Out
  | .enc => encTurn
  | .dec => decTurn
  | .host c => hostTurn c

theorem step_cons (s : State) (u : Turn) (l : List Turn) :
    step { s with turns := u :: l } = u.move { s with turns := l } := by
  cases u <;> rfl

/-- A unit's turn keeps the configuration and the turns to come, and does the same whatever those are. -/
theorem Turn.move_of_unit {u : Turn} (hu : u = .enc ∨ u = .dec) {s t : State} (hshared : s.cfg.sharedStrm = false)
    (h : u.move s = .next t) :
    t.cfg = s.cfg ∧ t.turns = s.turns ∧ ∀ l, u.move { s with turns := l } = .next { t with turns := l } := by
  rcases hu with rfl | rfl
  · obtain ⟨e, m, rfl⟩ : ∃ e m, t = { s with enc := e, encStrm := m } := ⟨_, _, encTurn_frame h⟩
    exact ⟨rfl, rfl, fun l => encTurn_withDecSide h s.dec s.grid l⟩
  · obtain ⟨d, g, rfl⟩ : ∃ d g, t = { s with dec := d, grid := g } := ⟨_, _, decTurn_frame h⟩
    exact ⟨rfl, rfl, fun l => decTurn_withEncSide h hshared s.enc s.encStrm l⟩

/-- Neighbouring turns of units commute (R186). -/
theorem Turn.move_swap {u v : Turn} (hu : u = .enc ∨ u = .dec) (hv : v = .enc ∨ v = .dec) {s r t : State}
    {l : List Turn} (hshared : s.cfg.sharedStrm = false) (hfirst : u.move { s with turns := v :: l } = .next r)
    (hsecond : v.move { r with turns := l } = .next t) :
    ∃ r', v.move { s with turns := u :: l } = .next r' ∧ u.move { r' with turns := l } = .next t := by
  rcases hu with rfl | rfl <;> rcases hv with rfl | rfl
  · exact ⟨r, hfirst, hsecond⟩
  · exact encTurn_after_decTurn (s := { s with turns := .dec :: l }) hshared hfirst hsecond _
  · exact decTurn_after_encTurn (s := { s with turns := .enc :: l }) hshared hfirst hsecond _
  · exact ⟨r, hfirst, hsecond⟩

/-- A run of the turns of a list from `s`. -/
def State.runTurns (s : State) (l : List Turn) : Out := runSteps l.length { s with turns := l }

/-- A run of turns of units, taken apart at its first turn. -/
theorem State.runTurns_cons {s t : State} {u : Turn} {l : List Turn} (hu : u = .enc ∨ u = .dec)
    (hshared : s.cfg.sharedStrm = false) :
    s.runTurns (u :: l) = .next t ↔ ∃ r, u.move { s with turns := l } = .next r ∧ r.runTurns l = .next t := by
  have hturns : ∀ r, u.move { s with turns := l } = .next r → { r with turns := l } = r := by
    intro r hr
    obtain ⟨-, hl, -⟩ := Turn.move_of_unit (s := { s with turns := l }) hu hshared hr
    rw [← show r.turns = l from hl]
  constructor
  · intro h
    obtain ⟨r, hr, hrun⟩ := runSteps_succ_next h
    rw [step_cons] at hr
    exact ⟨r, hr, by rwa [State.runTurns, hturns r hr]⟩
  · rintro ⟨r, hr, hrun⟩
    rw [State.runTurns, hturns r hr] at hrun
    exact (runSteps_succ ((step_cons s u l).trans hr)).trans hrun

/-- The order of the turns of the two units does not matter: any order is reached by swaps of neighbours. -/
theorem State.runTurns_perm {l l' : List Turn} (hperm : l.Perm l') {s t : State} (hl : ∀ u ∈ l, u = .enc ∨ u = .dec)
    (hshared : s.cfg.sharedStrm = false) (h : s.runTurns l = .next t) : s.runTurns l' = .next t := by
  induction hperm generalizing s with
  | nil => exact h
  | @cons u l l' _ ih =>
    obtain ⟨hu, hl⟩ := List.forall_mem_cons.mp hl
    obtain ⟨r, hr, hrun⟩ := (State.runTurns_cons hu hshared).mp h
    obtain ⟨hcfg, -, hmove⟩ := Turn.move_of_unit (s := { s with turns := l }) hu hshared hr
    exact (State.runTurns_cons hu hshared).mpr
      ⟨_, hmove l', ih hl ((congrArg Config.sharedStrm hcfg).trans hshared) hrun⟩
  | swap u v l =>
    obtain ⟨hv, hl⟩ := List.forall_mem_cons.mp hl
    obtain ⟨hu, -⟩ := List.forall_mem_cons.mp hl
    obtain ⟨r, hr, hrun⟩ := (State.runTurns_cons hv hshared).mp h
    obtain ⟨hcfg, -, -⟩ := Turn.move_of_unit (s := { s with turns := u :: l }) hv hshared hr
    obtain ⟨w, hw, hrun'⟩ := (State.runTurns_cons hu ((congrArg Config.sharedStrm hcfg).trans hshared)).mp hrun
    obtain ⟨r', hr', hw'⟩ := Turn.move_swap hv hu hshared hr hw
    obtain ⟨hcfg', -, -⟩ := Turn.move_of_unit (s := { s with turns := v :: l }) hu hshared hr'
    exact (State.runTurns_cons hu hshared).mpr
      ⟨r', hr', (State.runTurns_cons hv ((congrArg Config.sharedStrm hcfg').trans hshared)).mpr ⟨w, hw', hrun'⟩⟩
  | trans hperm _ ih ih' => exact ih' (fun u hu => hl u (hperm.mem_iff.mpr hu)) hshared (ih hl hshared h)

/-- Settles O53: the two lists are permutations of each other. -/
theorem interleavingIsImmaterial : Obligations.InterleavingIsImmaterial := by
  intro s t l hshared hl h
  have hperm : l.Perm (List.replicate (l.count .enc) .enc ++ List.replicate (l.count .dec) .dec) :=
    (List.perm_replicate_append_replicate (show Turn.enc ≠ .dec from nofun)).mpr
      ⟨rfl, rfl, fun u hu => by simpa using hl u hu⟩
  have hrun := State.runTurns_perm hperm hl hshared h
  rwa [State.runTurns, ← hperm.length_eq] at hrun

end Sys2Proof.Machine
end

section
/-! PROOF. What the host can do (spec/10_state.md R28, spec/20_memory.md R46, R50, R55, spec/70_reset_and_hazards.md
R204, R210): the start bits, the length registers, the reads of the registers, the memories and the register map. -/

namespace Sys2Proof.Machine

/-! ### Register writes -/

/-- Bit 0 of a written value is its parity (log 14). -/
theorem getLsbD_zero_iff_odd (v : Word) : v.getLsbD 0 = true ↔ v.toNat % 2 = 1 := by
  simp [BitVec.getLsbD]

/-- Settles O39. -/
theorem startBitsIssueTheStart : Obligations.StartBitsIssueTheStart := by
  intro s v
  have henc : hostTurn (.writeReg .encCtrlStart v) s = if v.toNat % 2 = 1 then startEnc s else .next s := by
    simp only [← getLsbD_zero_iff_odd]
    rfl
  have hdec : hostTurn (.writeReg .decCtrlStart v) s = if v.toNat % 2 = 1 then startDec s else .next s := by
    simp only [← getLsbD_zero_iff_odd]
    rfl
  refine ⟨henc, hdec, fun hb => ?encBusy, fun hb => ?decBusy⟩
  case encBusy => rw [henc, startEnc_of_busy hb, ite_self]
  case decBusy => rw [hdec, startDec_of_busy hb, ite_self]

/-- Settles O54: what each write does follows the tests of its definition. -/
theorem lengthRegistersTakeTheHostsValue : Obligations.LengthRegistersTakeTheHostsValue := by
  intro s v
  refine ⟨?srcLen, ?inLen⟩
  case srcLen =>
    show writeSrcLen v s = _
    by_cases hb : s.enc.status = .busy
    · rw [writeSrcLen, if_pos (State.encBusy_eq_true.mpr hb), if_pos hb]
    · rw [writeSrcLen, if_neg (State.encBusy_eq_true.not.mpr hb), if_neg hb]
  case inLen =>
    show writeInLen v s = _
    by_cases hb : s.dec.status = .busy
    · rw [writeInLen, if_pos (State.decBusy_eq_true.mpr hb), if_pos (.inl hb)]
    · rw [writeInLen, if_neg (State.decBusy_eq_true.not.mpr hb)]
      by_cases hv : v.toNat ≤ s.cfg.streamCap
      · rw [if_pos hv, if_neg (by simp [hb, hv])]
      · rw [if_neg hv, if_pos (.inr (by omega))]

/-! ### Register reads -/

/-- A register that can be read is answered with its value (R28). -/
theorem hostReads_of_readable {s : State} {r : HostReg} {n : Nat} (hr : s.readable r = true)
    (hn : (s.regValue r).toNat = n) : HostReads s r n :=
  ⟨s.regValue r, hn, by rw [hostReadReg_eq, if_pos hr]⟩

/-- A number that fits the host's word is read as it is (log 10). -/
theorem hostReads_nat {s : State} {r : HostReg} {n : Nat} (hr : s.readable r = true)
    (hv : s.regValue r = BitVec.ofNat 32 n) (hn : n < 2 ^ 32) : HostReads s r n :=
  hostReads_of_readable hr (by rw [hv, BitVec.toNat_ofNat, Nat.mod_eq_of_lt hn])

theorem hostTurn_read_refused {s : State} {r : HostReg} (hr : s.readable r = false) :
    hostTurn (.readReg r) s = .refused (.busyUnitRegister r) := by
  rw [hostReadReg_eq, hr]
  rfl

/-- Settles O57, register by register: what is readable, and with which value. -/
theorem hostReadsRegisters : Obligations.HostReadsRegisters := by
  intro s
  refine ⟨⟨?encStatus, ?decStatus, ?encStart, ?decStart⟩, fun hb => ?enc, fun hb => ?dec, fun hb r hr => ?encBusy,
    fun hb r hr => ?decBusy⟩
  case encStatus => exact hostReads_of_readable rfl (by simp only [State.regValue]; cases s.enc.status <;> rfl)
  case decStatus => exact hostReads_of_readable rfl (by simp only [State.regValue]; cases s.dec.status <;> rfl)
  case encStart => exact hostReads_of_readable rfl rfl
  case decStart => exact hostReads_of_readable rfl rfl
  case enc =>
    have hfree : (!s.encBusy) = true := by simp [State.encBusy, hb]
    refine ⟨hostReads_of_readable hfree ?_, hostReads_nat hfree rfl, hostReads_nat hfree rfl, hostReads_nat hfree rfl,
      hostReads_nat hfree rfl, hostReads_nat hfree rfl, hostReads_nat hfree rfl⟩
    simp only [State.regValue]; cases s.enc.err <;> rfl
  case dec =>
    have hfree : (!s.decBusy) = true := by simp [State.decBusy, hb]
    refine ⟨hostReads_of_readable hfree ?_, hostReads_of_readable hfree ?_, hostReads_nat hfree rfl,
      hostReads_nat hfree rfl, hostReads_nat hfree rfl, hostReads_nat hfree rfl, hostReads_nat hfree rfl⟩
    · simp only [State.regValue]; cases s.dec.err <;> rfl
    · simp only [State.regValue]; cases s.dec.phase <;> rfl
  case encBusy =>
    have hread : (!s.encBusy) = false := by simp [State.encBusy, hb]
    simp only [List.mem_cons, List.not_mem_nil, or_false] at hr
    rcases hr with rfl | rfl | rfl | rfl | rfl | rfl | rfl <;> exact hostTurn_read_refused hread
  case decBusy =>
    have hread : (!s.decBusy) = false := by simp [State.decBusy, hb]
    simp only [List.mem_cons, List.not_mem_nil, or_false] at hr
    rcases hr with rfl | rfl | rfl | rfl | rfl | rfl | rfl <;> exact hostTurn_read_refused hread

/-! ### Memories -/

/-- The host has no move on an owned memory (R55). -/
theorem hostTurn_mem_of_owned {s : State} {sp : Space} (ho : s.owned sp = true) (a : Nat) (b : Byte) :
    hostTurn (.writeMem sp a b) s = .refused (.ownedMemory sp) ∧
      hostTurn (.readMem sp a) s = .refused (.ownedMemory sp) :=
  ⟨if_pos ho, if_pos ho⟩

/-- Settles O55: who owns which memory, and the START that a shared one refuses. -/
theorem ownedMemoriesAreRefused : Obligations.OwnedMemoriesAreRefused := by
  intro s a b
  refine ⟨fun hb sp hsp => ?enc, fun hb sp hsp => ?dec, fun hs he hd => ?startDec, fun hs hd he hn => ?startEnc⟩
  case enc =>
    refine hostTurn_mem_of_owned (Bool.of_not_eq_false fun hfree => ?_) a b
    exact (State.owned_eq_false.mp hfree).1 hsp hb
  case dec =>
    refine hostTurn_mem_of_owned (Bool.of_not_eq_false fun hfree => ?_) a b
    exact (State.owned_eq_false.mp hfree).2 hsp hb
  case startDec => simp [startDec, State.decBusy, State.encBusy, hs, he, hd]
  case startEnc => simp [startEnc, State.decBusy, State.encBusy, hs, he, hd, hn]

/-- The host's read of a byte of a memory that no BUSY unit owns (R46, R50). -/
theorem hostTurn_readMem {s : State} {sp : Space} {a : Nat} (ho : s.owned sp = false) (ha : a < sp.size s.cfg) :
    hostTurn (.readMem sp a) s = .next { s with hostData := (s.byteAt sp a).zeroExtend 32 } := by
  simp [hostTurn, hostReadMem, ho, State.load_of_lt ha]

/-- The host's write of a byte of a memory that no BUSY unit owns (R46, R50). -/
theorem hostTurn_writeMem {s : State} {sp : Space} {a : Nat} (ho : s.owned sp = false) (ha : a < sp.size s.cfg)
    (b : Byte) : hostTurn (.writeMem sp a b) s = .next (s.setMem sp ((s.memOf sp).write a b)) := by
  simp [hostTurn, hostWriteMem, ho, State.store, ha]

/-- Who owns a memory depends on the configuration and on the two units. -/
theorem State.owned_setMem (s : State) (sp sq : Space) (m : Memory) : (s.setMem sp m).owned sq = s.owned sq := by
  cases sq <;> simp [State.owned, State.encBusy, State.decBusy]

/-- Two names that are not those of one shared STRM are two memories (log 3). -/
theorem State.memOf_setMem_other {s : State} {sp sq : Space} (hne : sq ≠ sp)
    (hsep : ¬(s.cfg.sharedStrm = true ∧ (sp = .encStrm ∨ sp = .decStrm) ∧ (sq = .encStrm ∨ sq = .decStrm)))
    (m : Memory) : (s.setMem sp m).memOf sq = s.memOf sq := by
  cases hs : s.cfg.sharedStrm
  · cases sp <;> cases sq <;> simp_all [State.setMem, State.memOf]
  · cases sp <;> cases sq <;> simp_all [State.setMem, State.memOf]

/-- A byte that was read comes to the host as a word of the same value. -/
theorem toNat_zeroExtend_byte (b : Byte) : (b.zeroExtend 32).toNat = b.toNat := by
  simp; omega

/-- Settles O56: the write replaces one byte of one memory, and the read gives the byte that stands there. -/
theorem hostReadsWhatItWrote : Obligations.HostReadsWhatItWrote := by
  intro s sp a b henc hdec ha
  have ho : s.owned sp = false := State.owned_eq_false.mpr ⟨henc, hdec⟩
  refine ⟨⟨_, toNat_zeroExtend_byte _, hostTurn_readMem ho ha⟩, _, hostTurn_writeMem ho ha b, State.setMem_enc _ _ _,
    State.setMem_dec _ _ _, State.setMem_contents _ _ _, fun c hc => ?same, fun sq hne hsep c => ?other, ?readBack⟩
  case same => rw [State.memOf_setMem, Memory.read_write_other _ _ hc]
  case other => rw [State.memOf_setMem_other hne hsep]
  case readBack =>
    refine ⟨_, hostTurn_readMem ((State.owned_setMem _ _ _ _).trans ho) (by rwa [State.setMem_cfg]), ?_⟩
    rw [toNat_zeroExtend_byte, State.byteAt_setMem_write]

/-! ### The register map -/

/-- The register at an address that the map lists with one register only (R28; log 23). -/
theorem regAt_of_unique {c : Config} {a : Nat} {r : HostReg} (hr : (a, r) ∈ c.regMap)
    (hunique : ∀ q, (a, q) ∈ c.regMap → q = r) : regAt c a = some r := by
  cases hq : regAt c a with
  | none => exact absurd hr (not_mem_of_regAt hq r)
  | some q => rw [hunique q (mem_of_regAt hq)]

theorem regAt_of_unmapped {c : Config} {a : Nat} (h : ∀ r, (a, r) ∉ c.regMap) : regAt c a = none := by
  cases hq : regAt c a with
  | none => rfl
  | some q => exact absurd (mem_of_regAt hq) (h q)

/-- Settles O60. -/
theorem busAccessesReachTheMappedRegister : Obligations.BusAccessesReachTheMappedRegister := by
  intro s a v
  refine ⟨fun r hr hunique => ?mapped, fun hnone => ?unmapped⟩
  case mapped => simp only [hostTurn, regAt_of_unique hr hunique, and_self]
  case unmapped => simp only [hostTurn, regAt_of_unmapped hnone, and_self]

end Sys2Proof.Machine
end

section
/-! PROOF. The bytes of a well-formed stream (spec/42_encoder.md R112, R113, R116): which values they have, how often
each control byte stands there, how many there are, and the implied tool at each. -/

namespace Sys2Proof.Machine

/-! ### The bytes of a run -/

/-- A data byte, a literal 0xFF and COLOUR_END: no other byte stands in a colour sequence (R67, R82). -/
theorem mem_pack {v b : Byte} (hb : b ∈ pack v) : 0xC0 ≤ b.toNat ∨ b = Vocab.colourEnd := by
  simp only [pack, List.mem_cons, List.not_mem_nil, or_false] at hb
  rcases hb with rfl | rfl | rfl | rfl | rfl | rfl | rfl
  iterate 5 exact .inl (dataByte_toNat_ge _)
  · exact .inl (by decide)
  · exact .inr rfl

/-- The bytes of a painted run: a run-length byte, a data byte or 0xFF, COLOUR_END or ADVANCE_Y_PAINT (R112, `run`). -/
theorem mem_paintSeq {v b : Byte} {l : Nat} (hb : b ∈ paintSeq v l) :
    (1 ≤ b.toNat ∧ b.toNat ≤ 31) ∨ 0xC0 ≤ b.toNat ∨ b = 0x83 ∨ b = 0x40 := by
  rw [paintSeq_eq, List.mem_append, List.mem_append, List.mem_singleton] at hb
  rcases hb with (hb | hb) | rfl
  · exact (mem_pack hb).elim (fun h => .inr (.inl h)) (fun h => .inr (.inr (.inl h)))
  · exact .inl (toNat_of_mem_chunks hb)
  · exact .inr (.inr (.inr rfl))

/-- Of the control bytes a painted run has one COLOUR_END and one ADVANCE_Y_PAINT (R112, `run`). -/
theorem count_paintSeq {b : Byte} (hlo : 31 < b.toNat) (hhi : b.toNat < 0xC0) (v : Byte) (l : Nat) :
    (paintSeq v l).count b = [0x83, 0x40].count b := by
  have hdata : ∀ g, [dataByte g].count b = 0 := fun g =>
    List.count_eq_zero.mpr fun hb => dataByte_ne hhi g (List.mem_singleton.mp hb).symm
  have halpha : [Vocab.alpha].count b = 0 :=
    List.count_eq_zero.mpr fun hb => by rw [List.mem_singleton.mp hb] at hhi; exact absurd hhi (by decide)
  have hchunks : (chunks l).count b = 0 :=
    List.count_eq_zero.mpr fun hb => by have := toNat_of_mem_chunks hb; omega
  have hpack : (pack v).count b = [Vocab.colourEnd].count b := by
    simp only [pack, List.count_cons, List.count_nil, Nat.zero_add] at hdata halpha ⊢
    simp only [hdata, halpha, Nat.add_zero]
  rw [paintSeq_eq, List.count_append, List.count_append, hchunks, hpack, Nat.add_zero, ← List.count_append]
  rfl

/-! ### How often a control byte stands in a stream -/

theorem count_rowBytes {b : Byte} (hlo : 31 < b.toNat) (hhi : b.toNat < 0xC0) (row : List Run) :
    (rowBytes row).count b = row.length * [0x83, 0x40].count b + wrapSeq.count b := by
  induction row with
  | nil => simp [rowBytes]
  | cons r rs ih =>
    rw [rowBytes_cons, List.count_append, ih, count_paintSeq hlo hhi, List.length_cons, Nat.add_mul]
    omega

theorem sketchBytes_cons (row : List Run) (rows : List (List Run)) :
    sketchBytes (row :: rows) = Vocab.toolLine :: (rowBytes row ++ rows.flatMap rowBytes) := rfl

/-- The control bytes of a stream: TOOL_LINE at its start, two a run, and one wrap a row (R112). -/
theorem count_sketchBytes {b : Byte} (hlo : 31 < b.toNat) (hhi : b.toNat < 0xC0) (rows : List (List Run)) :
    (sketchBytes rows).count b =
      [Vocab.toolLine].count b + rows.flatten.length * [0x83, 0x40].count b + rows.length * wrapSeq.count b := by
  induction rows with
  | nil => simp [sketchBytes]
  | cons row rows ih =>
    have hsplit : (sketchBytes (row :: rows)).count b = (rowBytes row).count b + (sketchBytes rows).count b := by
      rw [sketchBytes_cons, sketchBytes, List.count_cons, List.count_cons, List.count_append, Nat.add_assoc]
    rw [hsplit, ih, count_rowBytes hlo hhi, List.flatten_cons, List.length_append, List.length_cons, Nat.add_mul,
      Nat.add_mul]
    omega

/-! ### How long a stream is -/

/-- A row of `W` samples has at most nine bytes a sample and its wrap (R7). -/
theorem length_rowBytes_le {row : List Run} (hlen : ∀ r ∈ row, 1 ≤ r.len) :
    (rowBytes row).length ≤ (row.map Run.len).sum * 9 + 4 := by
  induction row with
  | nil => simp [rowBytes]
  | cons r rs ih =>
    obtain ⟨hr, hrs⟩ := List.forall_mem_cons.mp hlen
    have := ih hrs
    have := nchunks_le (l := r.len)
    rw [rowBytes_cons, List.length_append, length_paintSeq, List.map_cons, List.sum_cons]
    omega

theorem length_flatMap_rowBytes_le {c : Config} {rows : List (List Run)} (h : ∀ row ∈ rows, rowWf c row = true) :
    (rows.flatMap rowBytes).length ≤ rows.length * (c.w * 9 + 4) := by
  induction rows with
  | nil => simp
  | cons row rows ih =>
    obtain ⟨hrow, hrows⟩ := List.forall_mem_cons.mp h
    obtain ⟨hlen, hsum, -⟩ := rowWf_iff.mp hrow
    have hbytes := length_rowBytes_le hlen
    have := ih hrows
    rw [hsum] at hbytes
    rw [List.flatMap_cons, List.length_append, List.length_cons, Nat.add_mul]
    omega

/-- What the rows of a well-formed stream are (R112). -/
theorem rowsWf_iff {c : Config} {rows : List (List Run)} :
    rowsWf c rows = true ↔ rows.length = c.h ∧ ∀ row ∈ rows, rowWf c row = true := by
  simp [rowsWf]

/-! ### The values of the bytes of a stream -/

/-- A byte of a stream is a byte of a run or of the wrap, which has TOOL_LINE too (R112). -/
theorem mem_sketchBytes {rows : List (List Run)} {b : Byte} (hb : b ∈ sketchBytes rows) :
    (∃ v l, b ∈ paintSeq v l) ∨ b ∈ wrapSeq := by
  rcases List.mem_cons.mp hb with rfl | hb
  · exact .inr (by decide)
  · obtain ⟨row, -, hb⟩ := List.mem_flatMap.mp hb
    rcases List.mem_append.mp hb with hb | hb
    · obtain ⟨r, -, hb⟩ := List.mem_flatMap.mp hb
      exact .inl ⟨_, _, hb⟩
    · exact .inr hb

/-- The bytes of a run and of the wrap are neither 0x00 nor reserved (R116). -/
theorem ne_zero_and_not_reserved {b : Byte} :
    ((1 ≤ b.toNat ∧ b.toNat ≤ 31) ∨ 0xC0 ≤ b.toNat ∨ b = 0x83 ∨ b = 0x40) ∨ b ∈ wrapSeq →
      b ≠ 0x00 ∧ classOf b ≠ .reserved := by
  revert b
  decide +kernel

/-- A stream of at least one row ends with the wrap of its last row (R112). -/
theorem wrapSeq_suffix_sketchBytes {rows : List (List Run)} (hne : rows ≠ []) : wrapSeq <:+ sketchBytes rows := by
  obtain ⟨init, row, rfl⟩ := (List.eq_nil_or_concat' rows).resolve_left hne
  rw [sketchBytes, List.flatMap_append, List.flatMap_singleton, rowBytes, ← List.append_assoc, ← List.cons_append]
  exact List.suffix_append _ _

/-- Settles O59: the counts of the control bytes, the bound on the length and the values of the bytes. -/
theorem shapeOfWellFormedStreams : Obligations.ShapeOfWellFormedStreams := by
  intro c rows hwf hrows
  obtain ⟨hcount, hrow⟩ := rowsWf_iff.mp hrows
  have ⟨_, _, hh, _⟩ := hwf
  have hne : rows ≠ [] := by rintro rfl; simp at hcount; omega
  dsimp only
  refine ⟨rfl, wrapSeq_suffix_sketchBytes hne, ?toolLine, ?toolNone, ?xReset, ?skip, ?paint, ?colourEnd, ?length,
    fun b hb => ?values⟩
  case length =>
    have := length_flatMap_rowBytes_le hrow
    rw [hcount] at this
    rw [sketchBytes, List.length_cons, Config.outMax]
    omega
  case values =>
    exact ne_zero_and_not_reserved ((mem_sketchBytes hb).imp (fun ⟨_, _, h⟩ => mem_paintSeq h) id)
  case toolLine =>
    rw [count_sketchBytes (by decide) (by decide), hcount]
    simp [wrapSeq, Nat.add_comm]
  case toolNone | xReset | skip | paint | colourEnd =>
    rw [count_sketchBytes (by decide) (by decide), hcount]
    simp [wrapSeq]

/-! ### The implied tool -/

/-- With the tool `t` before them, the bytes have the tool LINE at each ADVANCE_Y_PAINT and NONE at each ADVANCE_Y_SKIP
(R113). -/
def toolsAgree : Tool → List Byte → Prop
  | _, [] => True
  | t, b :: bs => (b = 0x40 → t = .line) ∧ (b = 0x41 → t = .none) ∧ toolsAgree (toolAfter t b) bs

theorem toolsAgree_append {t : Tool} {xs ys : List Byte} :
    toolsAgree t (xs ++ ys) ↔ toolsAgree t xs ∧ toolsAgree (xs.foldl toolAfter t) ys := by
  induction xs generalizing t with
  | nil => simp [toolsAgree]
  | cons x xs ih => simp [toolsAgree, ih, and_assoc]

/-- Where the tools agree, the tool before the byte at an index is as R113 says. -/
theorem toolsAgree.foldl_take {t : Tool} {bs : List Byte} (h : toolsAgree t bs) (i : Nat) :
    (bs[i]? = some 0x40 → (bs.take i).foldl toolAfter t = .line) ∧
    (bs[i]? = some 0x41 → (bs.take i).foldl toolAfter t = .none) := by
  induction bs generalizing t i with
  | nil => simp
  | cons b bs ih =>
    obtain ⟨hpaint, hskip, hrest⟩ := h
    cases i with
    | zero => simpa using ⟨hpaint, hskip⟩
    | succ i => simpa using ih hrest i

/-- Bytes without TOOL_NONE and ADVANCE_Y_SKIP keep the tool LINE (R113). -/
theorem toolsAgree_line {bs : List Byte} (h : ∀ b ∈ bs, b ≠ 0x80 ∧ b ≠ 0x41) :
    toolsAgree .line bs ∧ bs.foldl toolAfter .line = .line := by
  induction bs with
  | nil => exact ⟨trivial, rfl⟩
  | cons b bs ih =>
    obtain ⟨⟨hnone, hskip⟩, hbs⟩ := List.forall_mem_cons.mp h
    have hkeep : toolAfter .line b = .line := by rw [toolAfter, if_neg hnone, ite_self]
    obtain ⟨hagree, hline⟩ := ih hbs
    exact ⟨⟨fun _ => rfl, fun e => absurd e hskip, hkeep.symm ▸ hagree⟩, by rw [List.foldl_cons, hkeep, hline]⟩

/-- A row begins and ends with the tool LINE: its runs keep it, and the wrap takes it off and on again (R69, R113). -/
theorem toolsAgree_rowBytes (row : List Run) :
    toolsAgree .line (rowBytes row) ∧ (rowBytes row).foldl toolAfter .line = .line := by
  have hruns : ∀ b ∈ row.flatMap (fun r => paintSeq r.sample r.len), b ≠ 0x80 ∧ b ≠ 0x41 := by
    intro b hb
    obtain ⟨r, -, hb⟩ := List.mem_flatMap.mp hb
    have := mem_paintSeq hb
    constructor <;> rintro rfl <;> simp at this
  obtain ⟨hagree, hline⟩ := toolsAgree_line hruns
  have hwrap : toolsAgree .line wrapSeq := by simp [toolsAgree, wrapSeq, toolAfter]
  rw [rowBytes, toolsAgree_append, List.foldl_append, hline]
  exact ⟨⟨hagree, hwrap⟩, rfl⟩

theorem toolsAgree_rows (rows : List (List Run)) : toolsAgree .line (rows.flatMap rowBytes) := by
  induction rows with
  | nil => trivial
  | cons row rows ih =>
    obtain ⟨hagree, hline⟩ := toolsAgree_rowBytes row
    rw [List.flatMap_cons, toolsAgree_append, hline]
    exact ⟨hagree, ih⟩

/-- Settles O58: the first TOOL_LINE sets the tool the rows begin with. -/
theorem impliedToolOfWellFormedStreams : Obligations.ImpliedToolOfWellFormedStreams := by
  intro c rows i _ _
  have hstream : toolsAgree .none (sketchBytes rows) := ⟨nofun, nofun, toolsAgree_rows rows⟩
  exact hstream.foldl_take i

end Sys2Proof.Machine
end
